-- ==== Sys2Proof/Word.lean ====
section
/-! DEFINITION. The word types of the SPN cipher core (spec/00_scope.md R8, R9, R11, R17).

Every value of the core is unsigned and has a fixed width (R17); bit 0 is the least significant bit. The operators of
R18 are BitVec's own: `^^^` is `^`, `&&&` is `&`, `|||` is `|`, `~~~` is `~`, `++` is the concatenation with its left
side in the high bits, and `extractLsb' lo n` is the slice of n bits that starts at bit lo. -/

namespace Sys2Proof

/-- R8, `BLOCK_W = 8`: plaintext, ciphertext, cipher state and every round key. -/
abbrev Block := BitVec 8

/-- R9, `NIBBLE_W = 4`: half of a block. -/
abbrev Nibble := BitVec 4

/-- R11, `KEY_W = 32`: the key port. -/
abbrev Key := BitVec 32

/-- The command word `CMD[40:0]` (spec/30_encoding.md R72). -/
abbrev CmdWord := BitVec 41

/-- The micro-operation word `UOP[4:0]` (spec/30_encoding.md R74). -/
abbrev UopWord := BitVec 5

end Sys2Proof
end

