-- ==== Sys2Proof/Config.lean ====
section
/-! DEFINITION. What is fixed for one core before its first clock edge (spec/00_scope.md section 3, R206), the
types of its input ports (spec/10_state.md R20), and the two free values of the model.

The tables that have one value for every core (PERM, INV_PERM, the sequencer ROM) and the elaboration checks stand in
Sys2Proof/Machine/Tables.lean. -/

namespace Sys2Proof

/-- The two values of the `mode` input and of `op_mode` (spec/30_encoding.md R70): `mode = 0` is ENC, `mode = 1` is
DEC. -/
inductive Mode where
  | enc
  | dec
deriving DecidableEq, Repr, Inhabited

/-- One sample of the five input ports, taken whole at a rising edge of `clk` (spec/10_state.md R20,
spec/20_memory.md R57). Inputs are two-valued and stable at each edge (spec/92_eei_decisions.md D28; log 15). -/
structure Ports where
  rst   : Bool
  start : Bool
  mode  : Mode
  din   : Block
  key   : Key
deriving DecidableEq, Repr, Inhabited

/-- The elaboration parameter of a core: the table `SBOX`, with the proof that it is a bijection on 0..15
(spec/00_scope.md R12). The proof is part of the data, so that no core exists for a table that fails the check
(spec/60_exceptions.md R170, spec/93_implementation_defined.md I6). `INV_SBOX` is derived from it (R14). -/
structure Config where
  /-- Entry i is `SBOX[i]`. -/
  sbox : Vector (Fin 16) 16
  sboxBijective : Function.Bijective sbox.get
deriving DecidableEq, Repr

/-- FREE VALUE. The S-box of this core: the spec leaves its 16 values open (spec/00_scope.md R12,
spec/91_not_in_source.md N1; log 4). Nothing is known of it but that it is a bijection. -/
opaque Config.openSbox : Equiv.Perm (Fin 16)

/-- FREE VALUE. The port values at the edge numbered n, where the schedule of the host says nothing (log 1). -/
opaque Config.freePorts : Nat → Ports

/-- The configuration of the core after `State.reset`: the open S-box (log 4). -/
def Config.hardware : Config where
  sbox := Vector.ofFn Config.openSbox
  sboxBijective := by
    have h : (Vector.ofFn Config.openSbox).get = Config.openSbox := by
      funext i
      simp [Vector.get_eq_getElem]
    rw [h]
    exact Config.openSbox.bijective

/-- `SBOX_ID[n] = n`, a labelled TEST INSTANCE (spec/92_eei_decisions.md D25), not the repository's table. -/
def Config.sboxId : Config where
  sbox := #v[0, 1, 2, 3, 4, 5, 6, 7, 8, 9, 10, 11, 12, 13, 14, 15]
  sboxBijective := by decide

/-- `SBOX_T[n] = (7n + 3) mod 16`, a labelled TEST INSTANCE (spec/92_eei_decisions.md D25), not the repository's
table. -/
def Config.sboxT : Config where
  sbox := #v[3, 10, 1, 8, 15, 6, 13, 4, 11, 2, 9, 0, 7, 14, 5, 12]
  sboxBijective := by decide

end Sys2Proof
end

