-- ==== Sys2Proof/Machine/State.lean ====
section
/-! DEFINITION. The state of the core (spec/10_state.md), the reasons a step can stop, and the state after reset. -/

namespace Sys2Proof.Machine

/-- `phase` (R28): IDLE = 0, RUN = 1. -/
inductive Phase where
  | idle
  | run
deriving DecidableEq, Repr, Inhabited

/-- No command and no micro-operation raises an exception at run time (spec/60_exceptions.md R174), so the type of
run-time faults is EMPTY: no constructor, nobody raises one. The two configuration errors of R172 arise at elaboration,
before a core exists (Machine/Tables.lean). -/
inductive Fault
deriving DecidableEq, Repr

/-- Why the model gives no next state. Each but the first is a refusal the spec asks of a model; all are SAFE (the
model stops where no edge from reset ever leads). -/
inductive Refusal where
  /-- exec's arm of an instruction without a meaning; no arm raises it now. Safe. -/
  | notModelled (mnemonic : String)
  /-- Any edge but a reset edge, and any output read, before the first reset edge after power-up
  (spec/70_reset_and_hazards.md R204, spec/93_implementation_defined.md I1). Raised by every edge and by
  State.readOutputs. Safe. -/
  | powerUp
  /-- `step` in 12..15 in RUN (R29, R175, I3). Raised by every edge but a reset edge. Safe. -/
  | stepOutOfRange
  /-- `step` other than 0 in IDLE (R39, I4). Raised by every edge but a reset edge. Safe. -/
  | idleStepNonzero
  /-- `busy` and `done` both 1 (R39). Raised by every edge but a reset edge. Safe. -/
  | busyAndDone
  /-- A reserved micro-operation word (spec/30_encoding.md R77, R175, I2). Raised where a word is executed. Safe. -/
  | reservedMicroOp (w : UopWord)
  /-- A micro-operation in IDLE, where the controller applies none (spec/41_pipeline.md R133; log 7). Raised by the
  meanings of XK, SUB, ISUB, PERM and IPERM, never by a step. Safe. -/
  | microOpWhileIdle
deriving DecidableEq, Repr

/-- The state of one core. The fields from `phase` to `doneR` are the registers of spec/10_state.md R28 to R35; `cfg`
is the constant configuration (R23, R27), which no step changes; `resetSeen`, `inputs` and `edge` are the model's own
(INVENTORY.md, State). -/
structure State where
  /-- The elaborated configuration: SBOX, from which INV_SBOX is derived (R23, R25). -/
  cfg : Config
  /-- `phase` (R28). -/
  phase : Phase
  /-- `step` (R29), 4 bits. -/
  step : BitVec 4
  /-- `op_mode` (R30). -/
  opMode : Mode
  /-- `st` (R31). -/
  st : Block
  /-- `rk[0..3]` (R32). -/
  rk : Vector Block 4
  /-- `dout_r` (R34). -/
  doutR : Block
  /-- `done_r` (R35). -/
  doneR : Bool
  /-- The model's own: whether a reset edge has run since power-up (R204; log 5). -/
  resetSeen : Bool
  /-- The model's own: the port samples the host has fixed for the coming edges, the next one first (log 2). -/
  inputs : List Ports
  /-- The model's own: the number of the coming edge, read by the free value Config.freePorts only (log 1). -/
  edge : Nat
deriving DecidableEq, Repr

/-- The core right after a reset edge (R40, R200): every register at its reset value, the open configuration (log 4),
no port sample fixed (log 12). -/
def State.reset : State where
  cfg := Config.hardware
  phase := .idle
  step := 0#4
  opMode := .enc
  st := 0x00#8
  rk := #v[0x00#8, 0x00#8, 0x00#8, 0x00#8]
  doutR := 0x00#8
  doneR := false
  resetSeen := true
  inputs := []
  edge := 0

/-- The port values at the coming edge: the next fixed sample, or free where none is fixed (R20, R57; log 1). -/
def State.ports (s : State) : Ports :=
  match s.inputs with
  | p :: _ => p
  | [] => Config.freePorts s.edge

end Sys2Proof.Machine
end

