-- ==== Sys2Proof/Machine/Flags.lean ====
section
/-! DEFINITION. The status the core shows. It has no flags and no condition codes, and no micro-operation computes one
(spec/10_state.md R36); its only status is `busy` and `done`, and its only result `dout` (R21). -/

namespace Sys2Proof.Machine

/-- What the three output ports show. -/
structure Outputs where
  dout : Block
  busy : Bool
  done : Bool
deriving DecidableEq, Repr

/-- `busy = (phase == RUN)` (R21). -/
def State.busy (s : State) : Bool := s.phase == .run

/-- `done = done_r` (R21). -/
def State.done (s : State) : Bool := s.doneR

/-- `dout = dout_r` (R21). -/
def State.dout (s : State) : Block := s.doutR

/-- Reading the outputs: it changes no state (spec/20_memory.md R57), and is refused before the first reset edge
(spec/70_reset_and_hazards.md R204). -/
def State.readOutputs (s : State) : Except Refusal Outputs :=
  if s.resetSeen then .ok ⟨s.dout, s.busy, s.done⟩ else .error .powerUp

end Sys2Proof.Machine
end

