-- ==== Sys2Proof/Syntax.lean ====
section
/-! DEFINITION. The instructions of the core, one constructor for each row of spec/opcode_table.json, and the words
that carry them (spec/30_encoding.md). -/

namespace Sys2Proof

/-- The two commands a host presents (spec/41_pipeline.md R136, R137) and the five micro-operations the sequencer
applies (spec/30_encoding.md R75). -/
inductive Instr where
  /-- Encrypt the block `din` under `key` (R136). -/
  | enc (key : Key) (din : Block)
  /-- Decrypt the block `din` under `key` (R137). -/
  | dec (key : Key) (din : Block)
  /-- AddRoundKey with round key `kidx` (spec/40_primitives.md R102). -/
  | xk (kidx : BitVec 2)
  /-- The forward confusion layer (R106). -/
  | sub
  /-- The inverse confusion layer (R110). -/
  | isub
  /-- The forward diffusion layer (R114). -/
  | perm
  /-- The inverse diffusion layer (R118). -/
  | iperm
deriving DecidableEq, Repr

/-- A word of one of the two formats of spec/opcode_table.json: the 41-bit command word (R72) or the 5-bit
micro-operation word (R74). There is no third length and no prefix (R79). -/
inductive CodeWord where
  | cmd (w : CmdWord)
  | uop (w : UopWord)
deriving DecidableEq, Repr

/-- Whether the instruction is an internal micro-operation, which a host never issues (spec/40_primitives.md). -/
def Instr.isMicroOp : Instr → Bool
  | .enc _ _ => false
  | .dec _ _ => false
  | .xk _ => true
  | .sub => true
  | .isub => true
  | .perm => true
  | .iperm => true

end Sys2Proof
end

