-- ==== Sys2Proof/WellFormed.lean ====
section
/-! DEFINITION. Which words and which sequences of words the spec allows.

The operands of an instruction carry their widths in their types, and every value of those widths is a valid operand
(spec/30_encoding.md R73, R75, R78), so EVERY term of Instr is well-formed. What can be ill-formed is a word (R77) and
a sequencer ROM (R76); the ill-formed configuration table is checked at elaboration (Machine/Tables.lean). -/

namespace Sys2Proof

/-- The class field `cls = UOP[4:2]` (R74). -/
def UopWord.cls (w : UopWord) : BitVec 3 := w.extractLsb' 2 3

/-- The round-key index field `kidx = UOP[1:0]` (R74). -/
def UopWord.kidx (w : UopWord) : BitVec 2 := w.extractLsb' 0 2

/-- R77: the words with `cls` in 101, 110, 111, and those of another class than XK with `kidx` other than 00. -/
def UopWord.reserved (w : UopWord) : Bool :=
  w.cls == 0b101#3 || w.cls == 0b110#3 || w.cls == 0b111#3 || (w.cls != 0b000#3 && w.kidx != 0b00#2)

/-- A command word is always defined (R78); a micro-operation word is, unless it is reserved (R77). -/
def CodeWord.wellFormed : CodeWord → Bool
  | .cmd _ => true
  | .uop w => !w.reserved

/-- Every operand value of every instruction is valid (R73, R75, R78): the types of Instr hold the widths. -/
def Instr.wellFormed : Instr → Bool
  | .enc _ _ => true
  | .dec _ _ => true
  | .xk _ => true
  | .sub => true
  | .isub => true
  | .perm => true
  | .iperm => true

/-- R76: a sequence of the ROM is 12 micro-operation words, none of them reserved. -/
def wellFormedSequence (ws : List UopWord) : Bool :=
  ws.length == 12 && ws.all fun w => !w.reserved

end Sys2Proof
end

