-- ==== Sys2Proof/Decode.lean ====
section
/-! DEFINITION. The decoder and the encoder (spec/30_encoding.md R70 to R79, spec/opcode_table.json).

The core fetches no bytes (spec/20_memory.md R55): a command arrives on ports, of which the command word is a notation
(R72), and a micro-operation word comes from the sequencer ROM (R76). So the decoder is total on the WORDS of the two
formats, and `CodeWord.ofBits` is total on numbers with a bit count, as spec/opcode_table.json numbers its rows
(log 10). -/

namespace Sys2Proof

/-- Why a micro-operation word is reserved (R77). -/
inductive ReservedWord where
  /-- `cls` is 101, 110 or 111. -/
  | badClass (w : UopWord)
  /-- `cls` is 001, 010, 011 or 100 and `kidx` is not 00. -/
  | badIndex (w : UopWord)
deriving DecidableEq, Repr

/-- The word that is reserved. -/
def ReservedWord.word : ReservedWord → UopWord
  | .badClass w => w
  | .badIndex w => w

/-- Why a row of bits stands for no instruction. -/
inductive DecodeError where
  /-- The bits form no word of either format: too few of them, or a bit set above the format's width (R79; log 10). -/
  | noSuchWord (nbits : Nat) (bits : Nat)
  /-- They form a reserved micro-operation word. -/
  | reserved (r : ReservedWord)
deriving DecidableEq, Repr

/-- R75: the micro-operation a word stands for; the 24 reserved words are refused by name (R77). -/
def decodeUop (w : UopWord) : Except ReservedWord Instr :=
  if w.cls = 0b000#3 then .ok (.xk w.kidx)
  else if w.cls = 0b101#3 ∨ w.cls = 0b110#3 ∨ w.cls = 0b111#3 then .error (.badClass w)
  else if w.kidx ≠ 0b00#2 then .error (.badIndex w)
  else if w.cls = 0b001#3 then .ok .sub
  else if w.cls = 0b010#3 then .ok .isub
  else if w.cls = 0b011#3 then .ok .perm
  else .ok .iperm

/-- R70, R72: `CMD[40]` is the mode, `CMD[39:8]` the key, `CMD[7:0]` the block. Every word is a command (R78). -/
def decodeCmd (w : CmdWord) : Instr :=
  if w.extractLsb' 40 1 = 0b0#1 then .enc (w.extractLsb' 8 32) (w.extractLsb' 0 8)
  else .dec (w.extractLsb' 8 32) (w.extractLsb' 0 8)

/-- The decoder, total on the words of both formats. -/
def decode : CodeWord → Except ReservedWord Instr
  | .cmd w => .ok (decodeCmd w)
  | .uop w => decodeUop w

/-- The command word `CMD[40:0]` with mode bit m, built from its three fields (R72). -/
def packCmd (m : BitVec 1) (key : Key) (din : Block) : CmdWord := m ++ key ++ din

/-- The word of an instruction, from the encoding tables of R72 and R75. -/
def encode : Instr → CodeWord
  | .enc key din => .cmd (packCmd 0b0#1 key din)
  | .dec key din => .cmd (packCmd 0b1#1 key din)
  | .xk kidx => .uop (0b000#3 ++ kidx)
  | .sub => .uop 0b00100#5
  | .isub => .uop 0b01000#5
  | .perm => .uop 0b01100#5
  | .iperm => .uop 0b10000#5

/-- A row of spec/opcode_table.json: its width in bits, and the bits it fixes. -/
structure TableRow where
  mnemonic : String
  width    : Nat
  mask     : Nat
  fixed    : Nat
deriving DecidableEq, Repr

/-- spec/opcode_table.json, row by row, in its order. -/
def opcodeTable : List TableRow :=
  [⟨"ENC", 41, 0x10000000000, 0x00000000000⟩,
   ⟨"DEC", 41, 0x10000000000, 0x10000000000⟩,
   ⟨"XK", 5, 0x1C, 0x00⟩,
   ⟨"SUB", 5, 0x1F, 0x04⟩,
   ⟨"ISUB", 5, 0x1F, 0x08⟩,
   ⟨"PERM", 5, 0x1F, 0x0C⟩,
   ⟨"IPERM", 5, 0x1F, 0x10⟩]

/-- The mnemonic of an instruction's row in spec/opcode_table.json. -/
def Instr.mnemonic : Instr → String
  | .enc _ _ => "ENC"
  | .dec _ _ => "DEC"
  | .xk _ => "XK"
  | .sub => "SUB"
  | .isub => "ISUB"
  | .perm => "PERM"
  | .iperm => "IPERM"

/-- The width in bits and the value of a word, numbered as spec/opcode_table.json numbers it. -/
def CodeWord.bits : CodeWord → Nat × Nat
  | .cmd w => (41, w.toNat)
  | .uop w => (5, w.toNat)

/-- Two rows overlap when some word of one width carries the fixed bits of both. -/
def TableRow.overlaps (a b : TableRow) : Bool :=
  a.width == b.width && (a.fixed &&& b.mask) == (b.fixed &&& a.mask)

/-- The word that nbits bits of value w spell: 41 bits or more are a command word, 5 to 40 bits a micro-operation
word, and every bit above the format's width must be 0 (log 10). -/
def CodeWord.ofBits (nbits w : Nat) : Except DecodeError CodeWord :=
  if 41 ≤ nbits then
    if w < 2 ^ 41 then .ok (.cmd (BitVec.ofNat 41 w)) else .error (.noSuchWord nbits w)
  else if 5 ≤ nbits then
    if w < 2 ^ 5 then .ok (.uop (BitVec.ofNat 5 w)) else .error (.noSuchWord nbits w)
  else .error (.noSuchWord nbits w)

/-- The decoder on a row of bits: which word they spell, then which instruction the word is. -/
def decodeBits (nbits w : Nat) : Except DecodeError Instr :=
  match CodeWord.ofBits nbits w with
  | .error e => .error e
  | .ok c =>
    match decode c with
    | .error r => .error (.reserved r)
    | .ok i => .ok i

/-- The instruction the decoder reads from a word numbered as spec/opcode_table.json numbers it. -/
def decodeTableWord (nbits w : Nat) : Option Instr := (decodeBits nbits w).toOption

end Sys2Proof
end

