-- ==== Sys2Proof/Machine/Tables.lean ====
section
/-! DEFINITION. The constant tables (spec/10_state.md R23 to R26), the elaboration that checks and derives them
(spec/60_exceptions.md R170 to R172, spec/70_reset_and_hazards.md R206), and the sequencer ROM
(spec/30_encoding.md R76). -/

namespace Sys2Proof.Machine

/-- The indices of a table at which it holds v, in ascending order: the set `idx` of R25 and R26. -/
def indicesOf {n : Nat} (t : Vector (Fin n) n) (v : Fin n) : List (Fin n) :=
  (List.finRange n).filter fun i => t.get i == v

/-- The first value v, ascending, that the table holds not exactly once; none for a permutation of 0..n-1. -/
def firstOffending {n : Nat} (t : Vector (Fin n) n) : Option (Fin n) :=
  (List.finRange n).find? fun v => (indicesOf t v).length != 1

/-- The inverse table: entry v is the single index that holds v (R25, R26). On a table that holds each value once
`indicesOf t v` has exactly one element, so the default is never read. -/
def inverseTable {n : Nat} (t : Vector (Fin n) n) : Vector (Fin n) n :=
  Vector.ofFn fun v => (indicesOf t v).headD v

/-- R172: the two configuration errors, each with the first offending value (spec/92_eei_decisions.md D8). -/
inductive ConfigError where
  /-- Code 1, `CFG_SBOX_NOT_BIJECTIVE` (R170). -/
  | sboxNotBijective (v : Fin 16)
  /-- Code 2, `CFG_PERM_NOT_PERMUTATION` (R171). -/
  | permNotPermutation (j : Fin 8)
deriving DecidableEq, Repr

/-- The code of a configuration error (R172). -/
def ConfigError.code : ConfigError → Nat
  | .sboxNotBijective _ => 1
  | .permNotPermutation _ => 2

/-- The four tables of a core (R23 to R26). -/
structure Tables where
  sbox    : Vector (Fin 16) 16
  invSbox : Vector (Fin 16) 16
  perm    : Vector (Fin 8) 8
  invPerm : Vector (Fin 8) 8
deriving DecidableEq, Repr

/-- Elaboration (R206): check SBOX and build INV_SBOX, then check the permutation table and build INV_PERM. A table
that fails its check is refused with the error's code and its first offending value (R170, R171). -/
def elaborate (sbox : Vector (Fin 16) 16) (perm : Vector (Fin 8) 8) : Except ConfigError Tables :=
  match firstOffending sbox with
  | some v => .error (.sboxNotBijective v)
  | none =>
    match firstOffending perm with
    | some j => .error (.permNotPermutation j)
    | none => .ok ⟨sbox, inverseTable sbox, perm, inverseTable perm⟩

/-- `PERM`, the one table whose values the spec states (spec/00_scope.md R13). -/
def permTable : Vector (Fin 8) 8 := #v[1, 5, 2, 0, 3, 7, 4, 6]

/-- `INV_PERM`, computed from PERM (R26, R215). -/
def invPermTable : Vector (Fin 8) 8 := inverseTable permTable

/-- `INV_SBOX` of a configuration, computed from its SBOX (R25). -/
def invSboxTable (c : Config) : Vector (Fin 16) 16 := inverseTable c.sbox

/-- `ENC_SEQ` (R76): XK0 SUB PERM XK1 SUB PERM XK2 SUB PERM XK3 SUB XK0. -/
def encSeq : List UopWord :=
  [0b00000#5, 0b00100#5, 0b01100#5, 0b00001#5, 0b00100#5, 0b01100#5,
   0b00010#5, 0b00100#5, 0b01100#5, 0b00011#5, 0b00100#5, 0b00000#5]

/-- `DEC_SEQ` (R76): XK0 ISUB XK3 IPERM ISUB XK2 IPERM ISUB XK1 IPERM ISUB XK0. -/
def decSeq : List UopWord :=
  [0b00000#5, 0b01000#5, 0b00011#5, 0b10000#5, 0b01000#5, 0b00010#5,
   0b10000#5, 0b01000#5, 0b00001#5, 0b10000#5, 0b01000#5, 0b00000#5]

/-- The sequence that `op_mode` selects (R76). -/
def sequenceOf : Mode → List UopWord
  | .enc => encSeq
  | .dec => decSeq

/-- The ROM word at `step` in the selected sequence; none for `step` in 12..15, where the ROM has no entry (R29). -/
def romWord (m : Mode) (i : BitVec 4) : Option UopWord := (sequenceOf m)[i.toNat]?

end Sys2Proof.Machine
end

