-- ==== Sys2Proof/Machine/Operands.lean ====
section
/-! DEFINITION. The operands of the core: the command on the ports, the key bytes, the nibbles of a block, the table
entries, and the values a host drives (spec/20_memory.md R52 to R54, spec/30_encoding.md R72, R73, R82). -/

namespace Sys2Proof.Machine

/-- The mode bit of the command word (spec/30_encoding.md R70). -/
def modeBit : Mode → BitVec 1
  | .enc => 0b0#1
  | .dec => 0b1#1

/-- The command word the ports spell: `CMD = {mode, key, din}` (R72). -/
def cmdWordOf (p : Ports) : CmdWord := packCmd (modeBit p.mode) p.key p.din

/-- Round key i is key byte i, least significant first: `rk[i] = key[8i+7:8i]` (spec/20_memory.md R52,
spec/40_primitives.md R100). -/
def roundKeys (key : Key) : Vector Block 4 := Vector.ofFn fun i => key.extractLsb' (8 * i.val) 8

/-- The high nibble `b[7:4]` (spec/20_memory.md R53). -/
def highNibble (b : Block) : Nibble := b.extractLsb' 4 4

/-- The low nibble `b[3:0]` (spec/20_memory.md R53). -/
def lowNibble (b : Block) : Nibble := b.extractLsb' 0 4

/-- The entry of a 16-entry nibble table at a nibble; every nibble has one (spec/20_memory.md R51). -/
def lookup (t : Vector (Fin 16) 16) (n : Nibble) : Nibble := BitVec.ofFin (t.get n.toFin)

/-- The block a host drives for the integer d: `d & 0xFF` (R82; log 13). -/
def hostBlock (d : Int) : Block := BitVec.ofInt 8 d

/-- The key a host drives for the integer k: its low 32 bits, in two's complement for a negative k (R82, R101,
spec/93_implementation_defined.md G1; log 13). A narrow key comes out zero-extended. -/
def hostKey (k : Int) : Key := BitVec.ofInt 32 k

end Sys2Proof.Machine
end

