-- ==== Sys2Proof/Machine/Ops.lean ====
section
/-! DEFINITION. The shared operations: the datapath functions (spec/40_primitives.md), the register updates of one
edge (spec/41_pipeline.md R130), and the guard a model puts before them (spec/10_state.md R39, spec/60_exceptions.md
R175).

The core takes no exception and returns from none (R174, R178, R179), so there is no entry and no return to write; the
one event that cuts a command short is a reset edge, `State.resetRegisters` (spec/70_reset_and_hazards.md R202). -/

namespace Sys2Proof.Machine

/-- `substitute(b, T) = {T[b[7:4]], T[b[3:0]]}` (R104). -/
def substitute (b : Block) (t : Vector (Fin 16) 16) : Block :=
  lookup t (highNibble b) ++ lookup t (lowNibble b)

/-- `permute(b, T)[i] = b[T[i]]` for i in 0..7 (R112). -/
def permute (b : Block) (t : Vector (Fin 8) 8) : Block := BitVec.ofFnLE fun i => b.getLsb (t.get i)

/-- The five micro-operations as the datapath sees them (spec/30_encoding.md R75). -/
inductive MicroOp where
  | xk (kidx : BitVec 2)
  | sub
  | isub
  | perm
  | iperm
deriving DecidableEq, Repr

/-- The micro-operation as an instruction of the opcode table. -/
def MicroOp.toInstr : MicroOp → Instr
  | .xk kidx => .xk kidx
  | .sub => .sub
  | .isub => .isub
  | .perm => .perm
  | .iperm => .iperm

/-- The micro-operation an instruction is; none for a command. -/
def microOpOf : Instr → Option MicroOp
  | .enc _ _ => none
  | .dec _ _ => none
  | .xk kidx => some (.xk kidx)
  | .sub => some .sub
  | .isub => some .isub
  | .perm => some .perm
  | .iperm => some .iperm

/-- `apply(u, s, rk)` (R130). -/
def MicroOp.apply (c : Config) (rk : Vector Block 4) (s : Block) : MicroOp → Block
  | .xk kidx => s ^^^ rk.get kidx.toFin
  | .sub => substitute s c.sbox
  | .isub => substitute s (invSboxTable c)
  | .perm => permute s permTable
  | .iperm => permute s invPermTable

/-- The refusal a model owes a state before any edge but a reset edge: no reset edge has run (R204), or an invariant
of R39 is broken (R175, I3, I4). None for every state that edges from a reset edge lead to. -/
def State.guard (s : State) : Option Refusal :=
  if s.resetSeen then
    match s.phase with
    | .idle => if s.step = 0#4 then none else some .idleStepNonzero
    | .run => if 12#4 ≤ s.step then some .stepOutOfRange else if s.doneR then some .busyAndDone else none
  else some .powerUp

/-- The edge has passed: its port sample is used up, and the next edge has the next number (logs 1, 2). -/
def State.tick (s : State) : State := { s with inputs := s.inputs.tail, edge := s.edge + 1 }

/-- The reset arm of R130: every register takes its reset value (R40, R200); the constant tables do not change. -/
def State.resetRegisters (s : State) : State :=
  { s with
    phase := .idle, step := 0#4, opMode := .enc, st := 0x00#8, rk := #v[0x00#8, 0x00#8, 0x00#8, 0x00#8],
    doutR := 0x00#8, doneR := false, resetSeen := true }

/-- The accept arm of R130 (R132): one snapshot of the command; `dout_r` keeps the previous result. -/
def State.accept (m : Mode) (key : Key) (din : Block) (s : State) : State :=
  { s with opMode := m, st := din, rk := roundKeys key, step := 0#4, phase := .run, doneR := false }

/-- The register writes of a micro-operation edge whose result is v (R130, R133): at step 11 the command completes
(R134), at any other step `step` advances by 1. -/
def State.writeBack (v : Block) (s : State) : State :=
  if s.step = 11#4 then { s with st := v, doutR := v, doneR := true, phase := .idle, step := 0#4 }
  else { s with st := v, step := s.step + 1#4 }

/-- One micro-operation edge in RUN: apply u to `st` (R133) and write back (R134). -/
def microOpEdge (u : MicroOp) (s : State) : Host.Outcome State Fault Refusal :=
  match s.guard with
  | some r => .refused r
  | none =>
    match s.phase with
    | .idle => .refused .microOpWhileIdle
    | .run => .next (s.writeBack (u.apply s.cfg s.rk s.st))

/-- The edge in RUN seen from outside: whatever the ports carry, the micro-operation at `step` in the selected sequence
runs (R130, R135). A reserved ROM word is refused (R77); the ROM holds none. -/
def runEdge (s : State) : Host.Outcome State Fault Refusal :=
  match romWord s.opMode s.step with
  | none => .refused .stepOutOfRange
  | some w =>
    match (decodeUop w).toOption.bind microOpOf with
    | none => .refused (.reservedMicroOp w)
    | some u => microOpEdge u s

/-- An edge at which a host presents a command: accepted in IDLE (R132), ignored in RUN, where the running command
goes on undisturbed (R135; log 8). -/
def commandEdge (m : Mode) (key : Key) (din : Block) (s : State) : Host.Outcome State Fault Refusal :=
  match s.guard with
  | some r => .refused r
  | none =>
    match s.phase with
    | .idle => .next (s.accept m key din)
    | .run => runEdge s

end Sys2Proof.Machine
end

