-- ==== Sys2Proof/Machine/Commands.lean ====
section
/-! DEFINITION. The meanings of the two commands: the edge at which a host presents one (spec/41_pipeline.md R132,
R135). The 12 edges that follow an accepted command are the micro-operations' (R133); what they add up to is the pure
function of R136 or R137, written in Sys2Proof/Machine/Cipher.lean. -/

namespace Sys2Proof.Machine

/-- `ENC din, key` (R136): `mode = 0` on the ports. -/
def execEnc (key : Key) (din : Block) (s : State) : Host.Outcome State Fault Refusal := commandEdge .enc key din s

/-- `DEC din, key` (R137): `mode = 1` on the ports. -/
def execDec (key : Key) (din : Block) (s : State) : Host.Outcome State Fault Refusal := commandEdge .dec key din s

end Sys2Proof.Machine
end

