-- ==== Sys2Proof/Machine/MicroOps.lean ====
section
/-! DEFINITION. The meanings of the five micro-operations (spec/40_primitives.md): one edge in RUN each, which reads
`st` before the edge and writes it at the edge (spec/00_scope.md R19). -/

namespace Sys2Proof.Machine

/-- `XK kk`: `st <- st ^ rk[kk]` (R102). -/
def execXk (kidx : BitVec 2) (s : State) : Host.Outcome State Fault Refusal := microOpEdge (.xk kidx) s

/-- `SUB`: `st <- {SBOX[st[7:4]], SBOX[st[3:0]]}` (R106). -/
def execSub (s : State) : Host.Outcome State Fault Refusal := microOpEdge .sub s

/-- `ISUB`: `st <- {INV_SBOX[st[7:4]], INV_SBOX[st[3:0]]}` (R110). -/
def execIsub (s : State) : Host.Outcome State Fault Refusal := microOpEdge .isub s

/-- `PERM`: bit i of the result is `st[PERM[i]]` (R114). -/
def execPerm (s : State) : Host.Outcome State Fault Refusal := microOpEdge .perm s

/-- `IPERM`: bit j of the result is `st[INV_PERM[j]]` (R118; spec/90_conflicts.md C2 decides for INV_PERM). -/
def execIperm (s : State) : Host.Outcome State Fault Refusal := microOpEdge .iperm s

end Sys2Proof.Machine
end

