-- ==== Sys2Proof/Machine/Dispatch.lean ====
section
/-! DEFINITION. One arm for each instruction: its meaning. -/

namespace Sys2Proof.Machine

/-- The effect of an instruction at one edge with `rst = 0`. -/
def exec (i : Instr) (s : State) : Host.Outcome State Fault Refusal :=
  match i with
  -- the commands (spec/41_pipeline.md)
  | .enc key din => Sys2Proof.Machine.execEnc key din s
  | .dec key din => Sys2Proof.Machine.execDec key din s
  -- the micro-operations (spec/40_primitives.md)
  | .xk kidx => Sys2Proof.Machine.execXk kidx s
  | .sub => Sys2Proof.Machine.execSub s
  | .isub => Sys2Proof.Machine.execIsub s
  | .perm => Sys2Proof.Machine.execPerm s
  | .iperm => Sys2Proof.Machine.execIperm s

end Sys2Proof.Machine
end

