-- ==== Sys2Proof/Machine/Edge.lean ====
section
/-! DEFINITION. One rising edge of `clk` (spec/41_pipeline.md R130): where the instruction of the edge comes from, what
runs, and how a word is placed to be the next one. -/

namespace Sys2Proof.Machine

/-- The word the core executes at the coming edge, when it is no reset edge (R130): in IDLE the command on the ports if
`start = 1` (R71), none if `start = 0` (R131); in RUN the ROM word at `step`, whatever the ports carry (R133, R135). A
state the guard refuses has none. -/
def fetch (s : State) : Except Refusal (Option CodeWord) :=
  match s.guard with
  | some r => .error r
  | none =>
    match s.phase with
    | .idle => .ok (if s.ports.start then some (.cmd (cmdWordOf s.ports)) else none)
    | .run =>
      match romWord s.opMode s.step with
      | some w => .ok (some (.uop w))
      | none => .error .stepOutOfRange

/-- Execute a word: decode it and run the instruction; a reserved micro-operation word is refused by name (R77). -/
def executeWord (c : CodeWord) (s : State) : Host.Outcome State Fault Refusal :=
  match decode c with
  | .ok i => Sys2Proof.Machine.exec i s
  | .error r => .refused (.reservedMicroOp r.word)

/-- What an outcome becomes when its next state goes through f. -/
def mapNext (f : State → State) : Host.Outcome State Fault Refusal → Host.Outcome State Fault Refusal
  | .next s => .next (f s)
  | .fault r => .fault r
  | .refused r => .refused r

/-- The next-state function at one rising edge (R130): `rst` over everything (R177, R201); else the word of the edge
runs, or nothing does (R131). The edge uses up its port sample. -/
def clockEdge (s : State) : Host.Outcome State Fault Refusal :=
  if s.ports.rst then .next s.resetRegisters.tick
  else
    match fetch s with
    | .error r => .refused r
    | .ok none => .next s.tick
    | .ok (some c) => mapNext State.tick (executeWord c s)

/-- The first ROM place that holds a micro-operation word: its sequence and its step. The reserved words have none. -/
def romPlace (w : UopWord) : Option (Mode × BitVec 4) :=
  match encSeq.idxOf? w with
  | some i => some (.enc, BitVec.ofNat 4 i)
  | none =>
    match decSeq.idxOf? w with
    | some i => some (.dec, BitVec.ofNat 4 i)
    | none => none

/-- The state in which a word is the next one the core executes (log 3). A command goes on the ports of the coming
edge, with the controller in IDLE (R71); a micro-operation is selected in the ROM, with the controller in RUN (R76). A
reserved word is in no ROM, so nothing can place it. -/
def placeWord (c : CodeWord) (s : State) : State :=
  match c with
  | .cmd w =>
    let p : Ports :=
      { rst := false, start := true, mode := if w.extractLsb' 40 1 = 0b0#1 then .enc else .dec,
        din := w.extractLsb' 0 8, key := w.extractLsb' 8 32 }
    { s with phase := .idle, step := 0#4, resetSeen := true, inputs := p :: s.inputs.tail }
  | .uop w =>
    match romPlace w with
    | none => s
    | some (m, i) =>
      { s with
        phase := .run, step := i, opMode := m, doneR := false, resetSeen := true,
        inputs := { s.ports with rst := false } :: s.inputs.tail }

end Sys2Proof.Machine
end

