-- ==== Sys2Proof/Machine/Step.lean ====
section
/-! DEFINITION. The step of the machine: one rising edge of `clk`. -/

namespace Sys2Proof.Machine

/-- One rising edge (spec/41_pipeline.md R130). -/
def step (s : State) : Host.Outcome State Fault Refusal := clockEdge s

/-- `s` with the word of value w, numbered as spec/opcode_table.json numbers it, where the next step takes its
instruction from (log 3); `s` itself where the bits form no word. -/
def State.withFetchWord (s : State) (nbits w : Nat) : State :=
  match CodeWord.ofBits nbits w with
  | .ok c => placeWord c s
  | .error _ => s

end Sys2Proof.Machine
end

