-- ==== Sys2Proof/Machine/Cipher.lean ====
section
/-! DEFINITION. The two commands as pure functions of their operands (spec/41_pipeline.md section 2), and the sequence
of micro-operations as a fold over `st` (R145). No step calls these: they say what a command's 12 edges compute. -/

namespace Sys2Proof.Machine

/-- `Enc(p, k)` (R136): three rounds of XOR, S, P, then XOR and S, then the closing XOR with round key 0. -/
def encryptBlock (c : Config) (p : Block) (k : Key) : Block :=
  let rk := roundKeys k
  let s := [0, 1, 2].foldl (fun s (r : Fin 4) => permute (substitute (s ^^^ rk.get r) c.sbox) permTable) p
  substitute (s ^^^ rk.get 3) c.sbox ^^^ rk.get 0

/-- `Dec(x, k)` (R137): XOR with round key 0 and S⁻¹, then for r in 3, 2, 1 XOR, P⁻¹, S⁻¹, then XOR with round key 0. -/
def decryptBlock (c : Config) (x : Block) (k : Key) : Block :=
  let rk := roundKeys k
  let s := substitute (x ^^^ rk.get 0) (invSboxTable c)
  let s := [3, 2, 1].foldl
    (fun s (r : Fin 4) => substitute (permute (s ^^^ rk.get r) invPermTable) (invSboxTable c)) s
  s ^^^ rk.get 0

/-- The pure function of the command that `mode` selects (R4). -/
def cipher (c : Config) : Mode → Block → Key → Block
  | .enc => encryptBlock c
  | .dec => decryptBlock c

/-- The micro-operations of a sequence, in ROM order. -/
def microOps (m : Mode) : List MicroOp := (sequenceOf m).filterMap fun w => (decodeUop w).toOption.bind microOpOf

/-- `st` after the first j micro-operations of a command (R145). -/
def traceAt (c : Config) (m : Mode) (key : Key) (din : Block) (j : Nat) : Block :=
  ((microOps m).take j).foldl (fun s u => u.apply c (roundKeys key) s) din

end Sys2Proof.Machine
end

