-- ==== Sys2Proof/Machine/Script.lean ====
section
/-! DEFINITION. Host programs (spec/30_encoding.md section 4): scripts that drive the input ports edge by edge and read
the outputs. They are the host's, not the core's: each statement states port values, and the core takes its steps. -/

namespace Sys2Proof.Machine

/-- A statement of a host program (R80). -/
inductive Stmt where
  | reset
  | enc (din : Block) (key : Key)
  | dec (din : Block) (key : Key)
  | nop (n : Nat)
  | read
deriving DecidableEq, Repr

/-- The port values of a statement's edges (R80). The inputs a statement calls don't-care take fill's values (log 11). -/
def Stmt.samples (fill : Ports) : Stmt → List Ports
  | .reset => [{ fill with rst := true, start := false }]
  | .enc din key => [{ rst := false, start := true, mode := .enc, din := din, key := key }]
  | .dec din key => [{ rst := false, start := true, mode := .dec, din := din, key := key }]
  | .nop n => List.replicate n { fill with rst := false, start := false }
  | .read => []

/-- `WAIT` after an accepted command: exactly `NOP 12` (R81; log 11). -/
def waitDone : List Stmt := [.nop 12]

/-- `ENCRYPT d, k -> c` (R81). -/
def encryptStmt (din : Block) (key : Key) : List Stmt := [.enc din key] ++ waitDone ++ [.read]

/-- `DECRYPT c, k -> p` (R81). -/
def decryptStmt (din : Block) (key : Key) : List Stmt := [.dec din key] ++ waitDone ++ [.read]

/-- One edge with the given port values. -/
def drive (p : Ports) (s : State) : Host.Outcome State Fault Refusal := step { s with inputs := p :: s.inputs }

/-- The edges with the given port values, in order, as far as they go. -/
def driveAll : List Ports → State → Host.Outcome State Fault Refusal
  | [], s => .next s
  | p :: ps, s =>
    match drive p s with
    | .next t => driveAll ps t
    | .fault r => .fault r
    | .refused r => .refused r

/-- Run a host program: the final state and what its READ statements recorded, in order (R80). -/
def runScript (fill : Ports) : List Stmt → State → Host.Outcome (State × List Outputs) Fault Refusal
  | [], s => .next (s, [])
  | c :: cs, s =>
    match driveAll (c.samples fill) s with
    | .fault r => .fault r
    | .refused r => .refused r
    | .next t =>
      match c with
      | .read =>
        match t.readOutputs with
        | .error r => .refused r
        | .ok o =>
          match runScript fill cs t with
          | .next (u, os) => .next (u, o :: os)
          | .fault r => .fault r
          | .refused r => .refused r
      | .reset | .enc _ _ | .dec _ _ | .nop _ => runScript fill cs t

end Sys2Proof.Machine
end

