-- ==== Sys2Proof/Safety.lean ====
section
/-! DEFINITION. What counts as a legal state and as a safe run (spec/10_state.md R39, spec/60_exceptions.md R174). -/

namespace Sys2Proof.Machine

/-- The invariants of R39 on one state, and that a reset edge has run (R204): IDLE has `step` 0, RUN has `step` in
0..11, and busy and done are never both 1. (R39's fourth line relates `rk` to the key of an earlier edge: it is a
statement about runs.) -/
abbrev State.Legal (s : State) : Prop :=
  s.resetSeen = true ∧
  (s.phase = .idle → s.step = 0#4) ∧
  (s.phase = .run → s.step.toNat ≤ 11) ∧
  ¬ (s.busy = true ∧ s.done = true)

/-- A run of n edges is safe when it ends in a next state: no fault and no refusal on the way. -/
def SafeRun (n : Nat) (s : State) : Prop := ∃ t, Sys2Proof.core.run n s = .next t

end Sys2Proof.Machine
end

