-- ==== Sys2Proof/Certificates/Slice0/Obligations.lean ====
section
/-! DEFINITION. The statements for the provers, from the numbered rules of spec/. -/

open Sys2Proof Sys2Proof.Machine

/-- What the registers hold after a micro-operation edge whose result is v, written out from the RUN arm of
spec/41_pipeline.md R130: at step 11 the completion, at any other step `step + 1`. -/
def Sys2Proof.Spec.written (v : Block) (s : State) : State :=
  if s.step = 11#4 then { s with st := v, doutR := v, doneR := true, phase := .idle, step := 0#4 }
  else { s with st := v, step := s.step + 1#4 }

/-- The number of set bits of a block. -/
def Sys2Proof.Spec.setBits (b : Block) : Nat := (List.finRange 8).countP fun i => b.getLsb i

/-! ## Encoding -/

/-- Decode and encode agree in both directions: a word decodes to an instruction exactly when it is that instruction's
encoding (spec/30_encoding.md sections 1 to 3). No bit of a word is dropped, and no second word is accepted. -/
def Obligations.DecodesExactlyTheEncodings : Prop :=
  ∀ (c : CodeWord) (i : Instr), decode c = .ok i ↔ encode i = c

/-- The eight defined micro-operation words of spec/30_encoding.md R75, and command words of spec/95_test_vectors.md
section 3, decode to the instructions they stand for. -/
def Obligations.WrittenOutWordsDecode : Prop :=
  decode (.uop 0b00000#5) = .ok (.xk 0) ∧ decode (.uop 0b00001#5) = .ok (.xk 1) ∧
  decode (.uop 0b00010#5) = .ok (.xk 2) ∧ decode (.uop 0b00011#5) = .ok (.xk 3) ∧
  decode (.uop 0b00100#5) = .ok .sub ∧ decode (.uop 0b01000#5) = .ok .isub ∧
  decode (.uop 0b01100#5) = .ok .perm ∧ decode (.uop 0b10000#5) = .ok .iperm ∧
  decode (.cmd 0x0123456783C#41) = .ok (.enc 0x12345678#32 0x3C#8) ∧
  decode (.cmd 0x1DEADBEEF00#41) = .ok (.dec 0xDEADBEEF#32 0x00#8)

/-- R77: the reserved words by class and index, 24 of the 32; the ROM holds none; a model handed one refuses it. -/
def Obligations.ReservedMicroOpWordsRefused : Prop :=
  (∀ w : UopWord, (decode (.uop w)).isOk = false ↔
    (w.extractLsb' 2 3 ∈ [0b101#3, 0b110#3, 0b111#3] ∨
      (w.extractLsb' 2 3 ∈ [0b001#3, 0b010#3, 0b011#3, 0b100#3] ∧ w.extractLsb' 0 2 ≠ 0b00#2))) ∧
  (List.finRange 32).countP (fun n => !(decode (.uop (BitVec.ofFin n))).isOk) = 24 ∧
  (∀ m, ∀ w ∈ sequenceOf m, (decode (.uop w)).isOk = true) ∧
  (∀ (w : UopWord) (s : State), (decode (.uop w)).isOk = false →
    executeWord (.uop w) s = .refused (.reservedMicroOp w))

/-- R70 and R72: bit 40 of the command word selects ENC or DEC, bits 39..8 are the key, bits 7..0 the block; every
command word is a command, and the ports spell it field by field. -/
def Obligations.CommandWordFields : Prop :=
  (∀ w : CmdWord, decode (.cmd w) =
    .ok (if w.getLsbD 40 then .dec (w.extractLsb' 8 32) (w.extractLsb' 0 8)
         else .enc (w.extractLsb' 8 32) (w.extractLsb' 0 8))) ∧
  (∀ p : Ports,
    ((cmdWordOf p).getLsbD 40 = true ↔ p.mode = .dec) ∧
    (∀ i, i < 32 → (cmdWordOf p).getLsbD (8 + i) = p.key.getLsbD i) ∧
    (∀ i, i < 8 → (cmdWordOf p).getLsbD i = p.din.getLsbD i))

/-- R76: the two sequences of the ROM, word by word, and what each word decodes to; `step` indexes the one that
`op_mode` selects. -/
def Obligations.SequencerRomContents : Prop :=
  sequenceOf .enc =
    [0b00000#5, 0b00100#5, 0b01100#5, 0b00001#5, 0b00100#5, 0b01100#5,
     0b00010#5, 0b00100#5, 0b01100#5, 0b00011#5, 0b00100#5, 0b00000#5] ∧
  sequenceOf .dec =
    [0b00000#5, 0b01000#5, 0b00011#5, 0b10000#5, 0b01000#5, 0b00010#5,
     0b10000#5, 0b01000#5, 0b00001#5, 0b10000#5, 0b01000#5, 0b00000#5] ∧
  (sequenceOf .enc).map (fun w => decode (.uop w)) =
    [.xk 0, .sub, .perm, .xk 1, .sub, .perm, .xk 2, .sub, .perm, .xk 3, .sub, .xk 0].map Except.ok ∧
  (sequenceOf .dec).map (fun w => decode (.uop w)) =
    [.xk 0, .isub, .xk 3, .iperm, .isub, .xk 2, .iperm, .isub, .xk 1, .iperm, .isub, .xk 0].map Except.ok ∧
  (∀ m, wellFormedSequence (sequenceOf m) = true) ∧
  (∀ m (i : BitVec 4), romWord m i = (sequenceOf m)[i.toNat]?)

/-! ## One edge: which instruction runs -/

/-- A step runs the decoded instruction: when the edge is no reset edge and the word it takes decodes to i, the step is
exec of i, and then the edge's port sample is used up. -/
def Obligations.StepRunsTheFetchedInstruction : Prop :=
  ∀ (s : State) (c : CodeWord) (i : Instr),
    s.ports.rst = false → fetch s = .ok (some c) → decode c = .ok i →
    Sys2Proof.Machine.step s =
      match exec i s with
      | .next t => .next { t with inputs := t.inputs.tail, edge := t.edge + 1 }
      | .fault r => .fault r
      | .refused r => .refused r

/-- Where the word of an edge comes from (R71, R76, R130): in IDLE the command on the ports, if `start = 1`; in RUN the
ROM word at `step`, whatever the ports carry, and it decodes to a micro-operation. -/
def Obligations.FetchTakesPortsInIdleAndRomInRun : Prop :=
  ∀ s : State, s.Legal →
    (s.phase = .idle → s.ports.start = true → fetch s = .ok (some (.cmd (cmdWordOf s.ports)))) ∧
    (s.phase = .idle → s.ports.start = false → fetch s = .ok none) ∧
    (s.phase = .run → ∃ w i, (sequenceOf s.opMode)[s.step.toNat]? = some w ∧ fetch s = .ok (some (.uop w)) ∧
      decode (.uop w) = .ok i ∧ i.isMicroOp = true)

/-- A placed word is the next to run: for every instruction, the step after placing its word in a state is exec of that
instruction at that state, and it answers a next state. The placing is the model's own (log 3). -/
def Obligations.PlacedWordRunsNext : Prop :=
  ∀ (i : Instr) (s : State), ∃ t,
    exec i (placeWord (encode i) s) = .next t ∧
    Sys2Proof.Machine.step (placeWord (encode i) s) = .next { t with inputs := t.inputs.tail, edge := t.edge + 1 }

/-! ## Reset, hold, accept -/

/-- R200 and R201: at an edge with `rst = 1`, from ANY state and whatever the other ports carry, every register takes
its reset value, the configuration stays, and the outputs are busy 0, done 0, dout 0x00. -/
def Obligations.ResetEdgeLoadsResetValues : Prop :=
  ∀ s : State, s.ports.rst = true → ∃ t,
    Sys2Proof.Machine.step s = .next t ∧
    t = { cfg := s.cfg, phase := .idle, step := 0#4, opMode := .enc, st := 0x00#8,
          rk := #v[0x00#8, 0x00#8, 0x00#8, 0x00#8], doutR := 0x00#8, doneR := false, resetSeen := true,
          inputs := s.inputs.tail, edge := s.edge + 1 } ∧
    t.readOutputs = .ok { dout := 0x00#8, busy := false, done := false }

/-- R203: one reset edge is enough; more of them hold the same register values; the first edge with `rst = 0` may be an
accept edge, which takes the command on the ports whole. -/
def Obligations.OneResetEdgeIsEnough : Prop :=
  ∀ (s : State) (p q : Ports) (ps : List Ports), p.rst = true → (∀ r ∈ ps, r.rst = true) →
    q.rst = false → q.start = true →
    ∃ t u v, drive p s = .next t ∧ driveAll ps t = .next u ∧ drive q u = .next v ∧
      t = { State.reset with cfg := s.cfg, inputs := t.inputs, edge := t.edge } ∧
      u = { State.reset with cfg := s.cfg, inputs := u.inputs, edge := u.edge } ∧
      v.phase = .run ∧ v.step = 0#4 ∧ v.opMode = q.mode ∧ v.st = q.din ∧ v.rk = roundKeys q.key ∧
      v.doneR = false ∧ v.doutR = 0x00#8

/-- R202: a reset at any edge of a running command ends it with no result: `dout` is 0x00 and `done` 0, and no later
edge completes it, for as long as no new command is presented. -/
def Obligations.ResetAbandonsTheCommand : Prop :=
  ∀ (s : State) (p : Ports) (ps : List Ports), s.phase = .run → p.rst = true → (∀ q ∈ ps, q.start = false) →
    ∃ t u, drive p s = .next t ∧ driveAll ps t = .next u ∧
      t.doutR = 0x00#8 ∧ t.done = false ∧ u.doutR = 0x00#8 ∧ u.done = false ∧ u.busy = false

/-- Before the first reset edge every output read is refused, and every edge but a reset edge; a reset edge brings the
core into a legal state (spec/70_reset_and_hazards.md section 1, Power-up). The register values a power-up state holds
are any (log 5). -/
def Obligations.PowerUpRefusesAllButReset : Prop :=
  ∀ s : State, s.resetSeen = false →
    s.readOutputs = .error .powerUp ∧
    (s.ports.rst = false → Sys2Proof.Machine.step s = .refused .powerUp) ∧
    (s.ports.rst = true → ∃ t, Sys2Proof.Machine.step s = .next t ∧ t.Legal)

/-- R131: an idle edge with `start = 0` changes no register. -/
def Obligations.IdleHoldChangesNoRegister : Prop :=
  ∀ s : State, s.Legal → s.ports.rst = false → s.phase = .idle → s.ports.start = false →
    Sys2Proof.Machine.step s = .next { s with inputs := s.inputs.tail, edge := s.edge + 1 }

/-- ENC and DEC complete at their accept edge: presented in IDLE, each loads op_mode, st, rk and the controller, clears
done_r, and leaves every other register (dout_r among them) as it was. -/
def Obligations.CommandsAreAcceptedInIdle : Prop :=
  ∀ (s : State) (key : Key) (din : Block), s.Legal → s.phase = .idle →
    exec (.enc key din) s = .next
      { s with opMode := .enc, st := din, step := 0#4, phase := .run, doneR := false,
               rk := #v[key.extractLsb' 0 8, key.extractLsb' 8 8, key.extractLsb' 16 8, key.extractLsb' 24 8] } ∧
    exec (.dec key din) s = .next
      { s with opMode := .dec, st := din, step := 0#4, phase := .run, doneR := false,
               rk := #v[key.extractLsb' 0 8, key.extractLsb' 8 8, key.extractLsb' 16 8, key.extractLsb' 24 8] }

/-- R132: the accept edge, from the ports: one snapshot of mode, din and key. -/
def Obligations.AcceptEdgeTakesThePorts : Prop :=
  ∀ s : State, s.Legal → s.ports.rst = false → s.phase = .idle → s.ports.start = true →
    Sys2Proof.Machine.step s = .next
      { s with opMode := s.ports.mode, st := s.ports.din, step := 0#4, phase := .run, doneR := false,
               rk := #v[s.ports.key.extractLsb' 0 8, s.ports.key.extractLsb' 8 8,
                        s.ports.key.extractLsb' 16 8, s.ports.key.extractLsb' 24 8],
               inputs := s.inputs.tail, edge := s.edge + 1 }

/-- R52: round key i of an accepted command, ENC or DEC, is key byte i, the least significant byte first. -/
def Obligations.RoundKeysAreTheKeyBytes : Prop :=
  ∀ (s : State) (key : Key) (din : Block) (i : Fin 4), s.Legal → s.phase = .idle →
    (∃ t, exec (.enc key din) s = .next t ∧ (t.rk.get i).toNat = key.toNat / 2 ^ (8 * i.val) % 256) ∧
    (∃ t, exec (.dec key din) s = .next t ∧ (t.rk.get i).toNat = key.toNat / 2 ^ (8 * i.val) % 256)

/-- The key a host drives for any integer, wide or negative: the core's round keys are the bytes that the source's
`(masterKey >> (i * 8)) & 0xFF` gives (spec/30_encoding.md section 4, spec/40_primitives.md section 1; the reading of
negative integers is general knowledge, log 13). A key that fits the port is driven as it is. -/
def Obligations.HostKeyBytes : Prop :=
  (∀ (k : Int) (i : Fin 4), (((roundKeys (hostKey k)).get i).toNat : Int) = k / 2 ^ (8 * i.val) % 256) ∧
  (∀ k : Nat, k < 2 ^ 32 → (hostKey k).toNat = k)

/-! ## The edges of a running command -/

/-- R22: `mode`, `din` and `key` matter only at an accept edge, which needs IDLE, `rst = 0` and `start = 1`; in RUN and
at a reset edge `start` does not matter either. -/
def Obligations.InputsMatterOnlyAtAcceptEdges : Prop :=
  ∀ (s : State) (p q : Ports) (ps : List Ports), p.rst = q.rst →
    (s.phase = .run ∨ p.rst = true ∨ (p.start = false ∧ q.start = false)) →
    Sys2Proof.Machine.step { s with inputs := p :: ps } = Sys2Proof.Machine.step { s with inputs := q :: ps }

/-- A request in RUN is ignored (spec/41_pipeline.md R135): the edge is the same whatever the ports carry, and a start
held across the completion edge is taken at the edge after it, with the values the ports carry then. That exec of ENC
or DEC in RUN answers the running micro-operation's edge is the model's reading (DEDUCED, log 8). -/
def Obligations.StartWhileBusyIsIgnored : Prop :=
  (∀ (s : State) (p q : Ports), s.phase = .run → p.rst = false → q.rst = false → drive p s = drive q s) ∧
  (∀ (s : State) (key : Key) (din : Block), s.Legal → s.phase = .run →
    ∃ u t, (microOps s.opMode)[s.step.toNat]? = some u ∧ exec u.toInstr s = .next t ∧
      exec (.enc key din) s = .next t ∧ exec (.dec key din) s = .next t) ∧
  (∀ (s : State) (p q : Ports), s.Legal → s.phase = .run → s.step = 11#4 →
    p.rst = false → p.start = true → q.rst = false → q.start = true →
    ∃ t u, drive p s = .next t ∧ t.phase = .idle ∧ t.doneR = true ∧ drive q t = .next u ∧
      u.phase = .run ∧ u.step = 0#4 ∧ u.opMode = q.mode ∧ u.st = q.din ∧ u.rk = roundKeys q.key ∧
      u.doneR = false ∧ u.doutR = t.doutR)

/-- R102, XK: the word, the next state in RUN for every round key, and the corner cases. -/
def Obligations.XkXorsTheRoundKey : Prop :=
  (∀ kk : BitVec 2, encode (.xk kk) = .uop (0b000#3 ++ kk)) ∧
  (∀ (kk : BitVec 2) (s : State), s.Legal → s.phase = .run →
    exec (.xk kk) s = .next (Spec.written (s.st ^^^ s.rk.get kk.toFin) s) ∧
    (s.rk.get kk.toFin = 0x00#8 → exec (.xk kk) s = .next (Spec.written s.st s)) ∧
    (s.rk.get kk.toFin = 0xFF#8 → exec (.xk kk) s = .next (Spec.written (~~~s.st) s))) ∧
  (0x55#8 ^^^ 0xB2#8) = 0xE7#8

/-- R106, SUB: the word, the next state in RUN, nibble by nibble through SBOX, and the worked example. -/
def Obligations.SubLooksUpBothNibbles : Prop :=
  encode .sub = .uop 0b00100#5 ∧
  (∀ s : State, s.Legal → s.phase = .run → ∃ v,
    exec .sub s = .next (Spec.written v s) ∧
    (v.extractLsb' 4 4).toFin = s.cfg.sbox.get (s.st.extractLsb' 4 4).toFin ∧
    (v.extractLsb' 0 4).toFin = s.cfg.sbox.get (s.st.extractLsb' 0 4).toFin) ∧
  substitute 0xE7#8 Config.sboxT.sbox = 0x54#8

/-- R110, ISUB: the word, the next state in RUN, nibble by nibble through INV_SBOX (each result nibble is the one that
SBOX sends to the nibble before), and the worked example. -/
def Obligations.IsubLooksUpBothNibblesInTheInverse : Prop :=
  encode .isub = .uop 0b01000#5 ∧
  (∀ s : State, s.Legal → s.phase = .run → ∃ v,
    exec .isub s = .next (Spec.written v s) ∧
    (v.extractLsb' 4 4).toFin = (invSboxTable s.cfg).get (s.st.extractLsb' 4 4).toFin ∧
    (v.extractLsb' 0 4).toFin = (invSboxTable s.cfg).get (s.st.extractLsb' 0 4).toFin ∧
    s.cfg.sbox.get (v.extractLsb' 4 4).toFin = (s.st.extractLsb' 4 4).toFin ∧
    s.cfg.sbox.get (v.extractLsb' 0 4).toFin = (s.st.extractLsb' 0 4).toFin) ∧
  substitute 0x54#8 (invSboxTable Config.sboxT) = 0xE7#8

/-- R114, PERM: the word, the next state in RUN with the bits written out (bit 7 first), the corner cases and the
worked example. -/
def Obligations.PermRoutesTheBits : Prop :=
  encode .perm = .uop 0b01100#5 ∧
  (∀ s : State, s.Legal → s.phase = .run →
    exec .perm s = .next (Spec.written (BitVec.ofBoolListBE
      [s.st.getLsbD 6, s.st.getLsbD 4, s.st.getLsbD 7, s.st.getLsbD 3,
       s.st.getLsbD 0, s.st.getLsbD 2, s.st.getLsbD 5, s.st.getLsbD 1]) s)) ∧
  permute 0x00#8 permTable = 0x00#8 ∧ permute 0xFF#8 permTable = 0xFF#8 ∧
  (∀ b : Block, (permute b permTable).getLsbD 2 = b.getLsbD 2 ∧
    Spec.setBits (permute b permTable) = Spec.setBits b) ∧
  (∀ j : Fin 8, permute (1#8 <<< j.val) permTable = 1#8 <<< (invPermTable.get j).val) ∧
  permute 0x55#8 permTable = 0xCC#8

/-- R118, IPERM: the word, the next state in RUN with the bits written out (bit 7 first), the corner cases and the
worked example. -/
def Obligations.IpermRoutesTheBitsBack : Prop :=
  encode .iperm = .uop 0b10000#5 ∧
  (∀ s : State, s.Legal → s.phase = .run →
    exec .iperm s = .next (Spec.written (BitVec.ofBoolListBE
      [s.st.getLsbD 5, s.st.getLsbD 7, s.st.getLsbD 1, s.st.getLsbD 6,
       s.st.getLsbD 4, s.st.getLsbD 2, s.st.getLsbD 0, s.st.getLsbD 3]) s)) ∧
  permute 0x00#8 invPermTable = 0x00#8 ∧ permute 0xFF#8 invPermTable = 0xFF#8 ∧
  (∀ b : Block, (permute b invPermTable).getLsbD 2 = b.getLsbD 2 ∧
    Spec.setBits (permute b invPermTable) = Spec.setBits b) ∧
  permute 0xCC#8 invPermTable = 0x55#8

/-- A micro-operation in IDLE is refused by name: the controller applies none there. The refusal is the model's own
reading (log 7). -/
def Obligations.MicroOpInIdleIsRefused : Prop :=
  ∀ (i : Instr) (s : State), i.isMicroOp = true → s.Legal → s.phase = .idle →
    exec i s = .refused .microOpWhileIdle

/-- The frame of XK, SUB, ISUB, PERM and IPERM: only `st` and `step` change, and at step 11 also `dout_r`, `done_r` and
`phase`; round keys, op_mode and the configuration never do, nor do the model's own fields. -/
def Obligations.MicroOpFrame : Prop :=
  ∀ (i : Instr) (s t : State), i.isMicroOp = true → exec i s = .next t →
    t.cfg = s.cfg ∧ t.rk = s.rk ∧ t.opMode = s.opMode ∧ t.resetSeen = s.resetSeen ∧
    t.inputs = s.inputs ∧ t.edge = s.edge ∧
    (s.step ≠ 11#4 → t.phase = s.phase ∧ t.doutR = s.doutR ∧ t.doneR = s.doneR)

/-- The frame of ENC and DEC in IDLE: the configuration, `dout_r` and the model's own fields stay. -/
def Obligations.CommandFrame : Prop :=
  ∀ (key : Key) (din : Block) (s t : State), s.phase = .idle →
    (exec (.enc key din) s = .next t ∨ exec (.dec key din) s = .next t) →
    t.cfg = s.cfg ∧ t.doutR = s.doutR ∧ t.resetSeen = s.resetSeen ∧ t.inputs = s.inputs ∧ t.edge = s.edge

/-! ## Who writes what -/

/-- R34: `dout_r` is written by the completion edge, with that edge's value of `st`, and by reset, and by nothing
else. -/
def Obligations.DoutIsWrittenByCompletionAndReset : Prop :=
  ∀ s t : State, Sys2Proof.Machine.step s = .next t →
    (s.ports.rst = true → t.doutR = 0x00#8) ∧
    (s.ports.rst = false → s.phase = .run → s.step = 11#4 → t.doutR = t.st) ∧
    (s.ports.rst = false → ¬ (s.phase = .run ∧ s.step = 11#4) → t.doutR = s.doutR)

/-- R35: the completion edge sets `done_r`, the accept edge and reset clear it, and every other edge leaves it. -/
def Obligations.DoneIsSetByCompletionOnly : Prop :=
  ∀ s t : State, Sys2Proof.Machine.step s = .next t →
    (s.ports.rst = true → t.doneR = false) ∧
    (s.ports.rst = false → s.phase = .idle → s.ports.start = true → t.doneR = false) ∧
    (s.ports.rst = false → s.phase = .run → s.step = 11#4 → t.doneR = true) ∧
    (s.ports.rst = false → ¬ (s.phase = .idle ∧ s.ports.start = true) → ¬ (s.phase = .run ∧ s.step = 11#4) →
      t.doneR = s.doneR)

/-- R32: the accept edge loads the four round keys with the key bytes, reset clears them, and no other edge changes
them. -/
def Obligations.RoundKeysAreWrittenByAcceptAndReset : Prop :=
  ∀ s t : State, Sys2Proof.Machine.step s = .next t →
    (s.ports.rst = true → ∀ i : Fin 4, t.rk.get i = 0x00#8) ∧
    (s.ports.rst = false → s.phase = .idle → s.ports.start = true →
      ∀ i : Fin 4, t.rk.get i = s.ports.key.extractLsb' (8 * i.val) 8) ∧
    (s.ports.rst = false → ¬ (s.phase = .idle ∧ s.ports.start = true) → t.rk = s.rk)

/-- The fourth line of R39, over runs: from an accept edge to the next, the round keys are the bytes of the accepted
key. (Over any number of edges without a reset, with any requests at the 12 edges of the command and none after them;
spec/10_state.md section 7.) -/
def Obligations.RoundKeysStayUntilTheNextAccept : Prop :=
  ∀ (s : State) (p : Ports) (ps : List Ports), s.Legal → s.phase = .idle → p.rst = false → p.start = true →
    (∀ i q, ps[i]? = some q → q.rst = false ∧ (12 ≤ i → q.start = false)) →
    ∃ t, driveAll (p :: ps) s = .next t ∧ ∀ i : Fin 4, t.rk.get i = p.key.extractLsb' (8 * i.val) 8

/-- R27: no edge and no instruction writes a table: the configuration, from which the S-box tables are read, stays (the
permutation tables and the ROM are constants of the model). -/
def Obligations.TablesAreNeverWritten : Prop :=
  (∀ s t : State, Sys2Proof.Machine.step s = .next t → t.cfg = s.cfg) ∧
  (∀ (i : Instr) (s t : State), exec i s = .next t → t.cfg = s.cfg)

/-- R142: `step` advances by exactly 1 at every edge in RUN, wraps to 0 only at completion, and nothing but a reset
leaves a command before completion. -/
def Obligations.StepAdvancesByOneInRun : Prop :=
  ∀ s : State, s.Legal → s.phase = .run → s.ports.rst = false → ∃ t, Sys2Proof.Machine.step s = .next t ∧
    (s.step.toNat < 11 → t.step.toNat = s.step.toNat + 1 ∧ t.phase = .run) ∧
    (s.step.toNat = 11 → t.step = 0#4 ∧ t.phase = .idle) ∧
    t.opMode = s.opMode

/-- R21: the outputs come from registers alone, with no path from any input. -/
def Obligations.OutputsComeFromRegisters : Prop :=
  ∀ (s : State) (ps : List Ports), s.resetSeen = true →
    { s with inputs := ps }.readOutputs = .ok ⟨s.doutR, decide (s.phase = .run), s.doneR⟩

/-! ## Legal states -/

/-- Every step lands in a legal state (R39), from whatever state it was taken. -/
def Obligations.EveryStepLandsInALegalState : Prop :=
  ∀ s t : State, Sys2Proof.Machine.step s = .next t → t.Legal

/-- The reset state holds the values of R40, and is legal. -/
def Obligations.ResetStateHoldsTheResetValues : Prop :=
  State.reset.phase = .idle ∧ State.reset.step = 0#4 ∧ State.reset.opMode = .enc ∧ State.reset.st = 0x00#8 ∧
  (∀ i : Fin 4, State.reset.rk.get i = 0x00#8) ∧ State.reset.doutR = 0x00#8 ∧ State.reset.doneR = false ∧
  State.reset.busy = false ∧ State.reset.Legal

/-- From a legal state every edge answers a next state, whatever the ports carry: nothing can stop the core (R146,
R174). -/
def Obligations.LegalStatesNeverStop : Prop :=
  (∀ s : State, s.Legal → ∃ t, Sys2Proof.Machine.step s = .next t) ∧
  (∀ (n : Nat) (s : State), s.Legal → SafeRun n s)

/-- A step stops exactly in the states the spec tells a model to refuse, and names why (R29, R39, R175, I1, I3, I4). That
it does so at every edge but a reset edge is the model's reading (DEDUCED, log 6). -/
def Obligations.RefusedStatesAreNamed : Prop :=
  ∀ s : State, s.ports.rst = false →
    ((∃ r, Sys2Proof.Machine.step s = .refused r) ↔ ¬ s.Legal) ∧
    (s.resetSeen = true → s.phase = .run → 12 ≤ s.step.toNat →
      Sys2Proof.Machine.step s = .refused .stepOutOfRange) ∧
    (s.resetSeen = true → s.phase = .idle → s.step ≠ 0#4 →
      Sys2Proof.Machine.step s = .refused .idleStepNonzero) ∧
    (s.resetSeen = true → s.phase = .run → s.step.toNat ≤ 11 → s.doneR = true →
      Sys2Proof.Machine.step s = .refused .busyAndDone)

/-- Nothing raises an exception at run time: no instruction and no edge faults (spec/60_exceptions.md R174), every
command answers a next state in every legal state, and every micro-operation in every legal state in RUN
(spec/41_pipeline.md R130, R135, spec/30_encoding.md R78). What a command answers in RUN is the model's reading
(DEDUCED, log 8). -/
def Obligations.NoRunTimeException : Prop :=
  (∀ (i : Instr) (s : State) (r : Fault), exec i s ≠ .fault r ∧ Sys2Proof.Machine.step s ≠ .fault r) ∧
  (∀ (s : State) (key : Key) (din : Block), s.Legal →
    (∃ t, exec (.enc key din) s = .next t) ∧ (∃ t, exec (.dec key din) s = .next t)) ∧
  (∀ (i : Instr) (s : State), i.isMicroOp = true → s.Legal → s.phase = .run → ∃ t, exec i s = .next t)

/-! ## The commands as functions -/

/-- R144: if a command is accepted and no reset comes at the next 12 edges, the core is busy and not done, with the old
`dout`, after the accept edge and the 11 edges that follow; after the twelfth, `dout` is the pure function of R136 or
R137 of the accepted operands, `done = 1`, and the core is in IDLE; if the sample after that presents a command, the
next edge accepts it. -/
def Obligations.CommandCompletesAfterTwelveEdges : Prop :=
  ∀ (s : State) (p : Ports) (qs rest : List Ports), s.Legal → s.phase = .idle →
    s.inputs = p :: (qs ++ rest) → p.rst = false → p.start = true → qs.length = 12 → (∀ q ∈ qs, q.rst = false) →
    (∀ j, j < 12 → ∃ t, Sys2Proof.core.run (j + 1) s = .next t ∧
      State.busy t = true ∧ State.done t = false ∧ State.dout t = s.dout) ∧
    (∃ t, Sys2Proof.core.run 13 s = .next t ∧ State.dout t = cipher s.cfg p.mode p.din p.key ∧
      State.done t = true ∧ State.busy t = false ∧ State.phase t = .idle ∧ State.inputs t = rest ∧
      (∀ q more, rest = q :: more → q.rst = false → q.start = true → ∃ u, Sys2Proof.Machine.step t = .next u ∧
        u.phase = .run ∧ u.step = 0#4 ∧ u.opMode = q.mode ∧ u.st = q.din ∧ u.rk = roundKeys q.key))

/-- R145: after edge t + j, for j in 1..12, `st` is the result of the first j words of the selected sequence applied to
the accepted block, and after edge t + 12 `dout` is the pure function of R136 or R137. -/
def Obligations.IntermediateStatesFollowTheSequence : Prop :=
  ∀ (s : State) (p : Ports) (qs : List Ports), s.Legal → s.phase = .idle → p.rst = false → p.start = true →
    qs.length ≤ 12 → (∀ q ∈ qs, q.rst = false) →
    ∃ t, driveAll (p :: qs) s = .next t ∧
      t.st = ((microOps p.mode).take qs.length).foldl (fun b u => u.apply s.cfg (roundKeys p.key) b) p.din ∧
      (qs.length = 12 → t.doutR = cipher s.cfg p.mode p.din p.key)

/-- R138: decryption undoes encryption, for every block, every key and every bijective SBOX. -/
def Obligations.DecryptUndoesEncrypt : Prop :=
  ∀ (c : Config) (p : Block) (k : Key), decryptBlock c (encryptBlock c p k) k = p

/-- R139: for a fixed key, Enc is a bijection on the 256 blocks and Dec is its inverse. -/
def Obligations.EncryptIsABijection : Prop :=
  ∀ (c : Config) (k : Key),
    Function.Bijective (fun p => encryptBlock c p k) ∧
    Function.LeftInverse (fun x => decryptBlock c x k) (fun p => encryptBlock c p k) ∧
    Function.RightInverse (fun x => decryptBlock c x k) (fun p => encryptBlock c p k)

/-- The round trip at the ports: from any legal idle state, ENCRYPT reads the ciphertext, and DECRYPT of what was read,
with the same key, reads the plaintext back (spec/30_encoding.md section 4, spec/41_pipeline.md section 3). WAIT is
`NOP 12`, and the inputs a NOP does not care about are any (log 11). -/
def Obligations.EncryptThenDecryptAtThePorts : Prop :=
  ∀ (fill : Ports) (s : State) (p : Block) (k : Key), s.Legal → s.phase = .idle →
    ∃ t u c, runScript fill (encryptStmt p k) s = .next (t, [⟨c, false, true⟩]) ∧ c = encryptBlock s.cfg p k ∧
      runScript fill (decryptStmt c k) t = .next (u, [⟨p, false, true⟩])

/-- R61: two commands with the same mode, din and key produce the same result, whatever ran before them: from any two
legal idle states of cores with one SBOX, and whatever the ports carry while the commands run. -/
def Obligations.ResultDependsOnTheOperandsAlone : Prop :=
  ∀ (s s' : State) (p p' : Ports) (qs qs' : List Ports), s.Legal → s'.Legal → s.phase = .idle → s'.phase = .idle →
    s.cfg = s'.cfg → p.rst = false → p'.rst = false → p.start = true → p'.start = true →
    p.mode = p'.mode → p.din = p'.din → p.key = p'.key → qs.length = 12 → qs'.length = 12 →
    (∀ q ∈ qs, q.rst = false) → (∀ q ∈ qs', q.rst = false) →
    ∃ t t', driveAll (p :: qs) s = .next t ∧ driveAll (p' :: qs') s' = .next t' ∧
      t.readOutputs = t'.readOutputs ∧ t.done = true

/-- The worked examples of R136 and R137, under the two labelled test instances of SBOX. -/
def Obligations.WorkedExamplesOfTheCommands : Prop :=
  encryptBlock Config.sboxT 0x55#8 0xB2#32 = 0xBF#8 ∧ encryptBlock Config.sboxId 0x55#8 0xB2#32 = 0xED#8 ∧
  decryptBlock Config.sboxT 0xBF#8 0xB2#32 = 0x55#8 ∧ decryptBlock Config.sboxId 0xED#8 0xB2#32 = 0x55#8

/-! ## Laws of the datapath and of elaboration -/

/-- R103: XK with a fixed round key is a bijection on the blocks and its own inverse, and two XK steps, with round keys a
and b, are one XK step whose round key is `a ^ b`. -/
def Obligations.XkLaws : Prop :=
  ∀ (c : Config) (rk : Vector Block 4) (kk : BitVec 2),
    Function.Bijective (fun s => (MicroOp.xk kk).apply c rk s) ∧
    (∀ s, (MicroOp.xk kk).apply c rk ((MicroOp.xk kk).apply c rk s) = s) ∧
    (∀ (jj ll : BitVec 2) (rk' : Vector Block 4) (s : Block),
      rk'.get ll.toFin = rk.get kk.toFin ^^^ rk.get jj.toFin →
      (MicroOp.xk jj).apply c rk ((MicroOp.xk kk).apply c rk s) = (MicroOp.xk ll).apply c rk' s)

/-- R111: substitution with SBOX and with INV_SBOX undo each other on every block. -/
def Obligations.SubAndIsubAreInverse : Prop :=
  ∀ (c : Config) (b : Block),
    substitute (substitute b c.sbox) (invSboxTable c) = b ∧ substitute (substitute b (invSboxTable c)) c.sbox = b

/-- R105: the two lanes of substitution are independent and go through one table, and neither is masked or skipped: each
output nibble is the table's entry at the input nibble of its own lane. -/
def Obligations.SubstitutionLanesAreIndependent : Prop :=
  ∀ (t : Vector (Fin 16) 16) (b b' : Block),
    (highNibble (substitute b t)).toFin = t.get (highNibble b).toFin ∧
    (lowNibble (substitute b t)).toFin = t.get (lowNibble b).toFin ∧
    (highNibble b = highNibble b' → highNibble (substitute b t) = highNibble (substitute b' t)) ∧
    (lowNibble b = lowNibble b' → lowNibble (substitute b t) = lowNibble (substitute b' t)) ∧
    (highNibble b = lowNibble b' → highNibble (substitute b t) = lowNibble (substitute b' t))

/-- R119 and the values of R15: permutation with PERM and with INV_PERM undo each other. -/
def Obligations.PermAndIpermAreInverse : Prop :=
  invPermTable = #v[3, 0, 2, 4, 6, 1, 7, 5] ∧
  (∀ i : Fin 8, invPermTable.get (permTable.get i) = i ∧ permTable.get (invPermTable.get i) = i) ∧
  (∀ b : Block, permute (permute b permTable) invPermTable = b ∧ permute (permute b invPermTable) permTable = b)

/-- R115: PERM is a bijection of order 7 with the 7-cycle 0,1,5,7,6,4,3 and the fixed position 2, and is no
involution. -/
def Obligations.PermHasOrderSeven : Prop :=
  Function.Bijective (fun b : Block => permute b permTable) ∧
  [0, 1, 5, 7, 6, 4, 3].map permTable.get = [1, 5, 7, 6, 4, 3, 0] ∧ permTable.get 2 = 2 ∧
  (∀ b : Block, (fun b : Block => permute b permTable)^[7] b = b) ∧
  (List.finRange 8).map (fun i => permTable.get (permTable.get i)) = [5, 7, 2, 1, 0, 6, 3, 4] ∧
  permute (permute 0x01#8 permTable) permTable = 0x10#8

/-- R121: every micro-operation is a bijection on the blocks, and so is every sequence of them. -/
def Obligations.MicroOpsAreBijections : Prop :=
  ∀ (c : Config) (rk : Vector Block 4),
    (∀ u : MicroOp, Function.Bijective fun s => u.apply c rk s) ∧
    (∀ us : List MicroOp, Function.Bijective fun s => us.foldl (fun b u => u.apply c rk b) s)

/-- Step j of DEC_SEQ undoes step 11 - j of ENC_SEQ, for every SBOX and every round keys (spec/95_test_vectors.md
section 2.5, from spec/30_encoding.md section 2). -/
def Obligations.DecryptStepsUndoEncryptSteps : Prop :=
  ∀ (c : Config) (rk : Vector Block 4) (j : Nat) (u v : MicroOp) (b : Block),
    (microOps .dec)[j]? = some u → (microOps .enc)[11 - j]? = some v →
    u.apply c rk (v.apply c rk b) = b

/-- The SBOX check of elaboration: it passes exactly on the bijections and then builds the inverse table; else it
records code 1 and the first value that the table holds not exactly once (spec/10_state.md section 2,
spec/60_exceptions.md section 1). -/
def Obligations.ElaborationChecksTheSbox : Prop :=
  ∀ sbox : Vector (Fin 16) 16,
    (Function.Bijective sbox.get ↔ ∃ ts, elaborate sbox permTable = .ok ts) ∧
    (∀ ts, elaborate sbox permTable = .ok ts →
      ts.sbox = sbox ∧ ts.perm = permTable ∧ ts.invPerm = invPermTable ∧
      ∀ n : Fin 16, ts.invSbox.get (sbox.get n) = n) ∧
    (∀ e, elaborate sbox permTable = .error e →
      e.code = 1 ∧ ∃ v : Fin 16, e = .sboxNotBijective v ∧ sbox.toList.count v ≠ 1 ∧
        ∀ w : Fin 16, w < v → sbox.toList.count w = 1)

/-- The permutation check of elaboration, on any table, after the SBOX check has passed: code 2 and the first offending
position; no involution is asked for (spec/60_exceptions.md section 1). -/
def Obligations.ElaborationChecksThePermutation : Prop :=
  ∀ (c : Config) (perm : Vector (Fin 8) 8),
    (Function.Bijective perm.get ↔ ∃ ts, elaborate c.sbox perm = .ok ts) ∧
    (∀ ts, elaborate c.sbox perm = .ok ts → ts.perm = perm ∧ ∀ i : Fin 8, ts.invPerm.get (perm.get i) = i) ∧
    (∀ e, elaborate c.sbox perm = .error e →
      e.code = 2 ∧ ∃ j : Fin 8, e = .permNotPermutation j ∧ perm.toList.count j ≠ 1 ∧
        ∀ i : Fin 8, i < j → perm.toList.count i = 1)
end

