-- ==== Sys2Proof/Laws/Tables.lean ====
section
/-! SUPPORT. The table inversion of elaboration: what its check says, and that the table it builds is the inverse. -/

namespace Sys2Proof.Machine

variable {n : Nat}

theorem mem_indicesOf {t : Vector (Fin n) n} {v i : Fin n} : i ∈ indicesOf t v ↔ t.get i = v := by
  simp [indicesOf]

/-- An injective table holds a value that it holds at i at no other index. -/
theorem indicesOf_get {t : Vector (Fin n) n} (h : Function.Injective t.get) (i : Fin n) :
    indicesOf t (t.get i) = [i] := by
  have hn : (indicesOf t (t.get i)).Nodup := (List.nodup_finRange n).filter _
  apply List.perm_singleton.mp
  rw [List.perm_ext_iff_of_nodup hn (List.nodup_singleton i)]
  intro j
  rw [mem_indicesOf, List.mem_singleton]
  exact ⟨fun e => h e, fun e => e ▸ rfl⟩

/-- `INV[T[i]] = i` (spec/00_scope.md R14, R15). -/
theorem inverseTable_get {t : Vector (Fin n) n} (h : Function.Injective t.get) (i : Fin n) :
    (inverseTable t).get (t.get i) = i := by
  have hx : (inverseTable t).get (t.get i) = (indicesOf t (t.get i)).headD (t.get i) := by
    simp [inverseTable, Vector.get_eq_getElem]
  rw [hx, indicesOf_get h i, List.headD_cons]

/-- `T[INV[v]] = v`, for a table that holds every value. -/
theorem get_inverseTable {t : Vector (Fin n) n} (h : Function.Bijective t.get) (v : Fin n) :
    t.get ((inverseTable t).get v) = v := by
  obtain ⟨i, rfl⟩ := h.surjective v
  rw [inverseTable_get h.injective]

/-- The elaboration check passes exactly on the bijective tables (spec/60_exceptions.md R170, R171). -/
theorem firstOffending_eq_none_iff {t : Vector (Fin n) n} :
    firstOffending t = none ↔ Function.Bijective t.get := by
  constructor
  · intro h
    have h1 : ∀ v, (indicesOf t v).length = 1 := by simpa [firstOffending] using h
    refine ⟨fun i j e => ?_, fun v => ?_⟩
    · obtain ⟨a, ha⟩ := List.length_eq_one_iff.mp (h1 (t.get j))
      have hi : i ∈ indicesOf t (t.get j) := mem_indicesOf.mpr e
      have hj : j ∈ indicesOf t (t.get j) := mem_indicesOf.mpr rfl
      rw [ha, List.mem_singleton] at hi hj
      rw [hi, hj]
    · obtain ⟨a, ha⟩ := List.length_eq_one_iff.mp (h1 v)
      exact ⟨a, mem_indicesOf.mp (ha ▸ List.mem_singleton_self a)⟩
  · intro h
    have h1 : ∀ v, (indicesOf t v).length = 1 := by
      intro v
      obtain ⟨i, rfl⟩ := h.surjective v
      rw [indicesOf_get h.injective, List.length_singleton]
    simpa [firstOffending] using h1

theorem permTable_bijective : Function.Bijective permTable.get := by decide

/-- `INV_SBOX[SBOX[n]] = n` (spec/00_scope.md R14). -/
theorem invSboxTable_get (c : Config) (i : Fin 16) : (invSboxTable c).get (c.sbox.get i) = i :=
  inverseTable_get c.sboxBijective.injective i

/-- `SBOX[INV_SBOX[v]] = v` (spec/00_scope.md R14). -/
theorem get_invSboxTable (c : Config) (v : Fin 16) : c.sbox.get ((invSboxTable c).get v) = v :=
  get_inverseTable c.sboxBijective v

end Sys2Proof.Machine
end

