-- ==== Sys2Proof/Laws/Datapath.lean ====
section
/-! SUPPORT. What the datapath functions do to nibbles and bits. -/

namespace Sys2Proof.Machine

/-- Bit by bit, two nibbles side by side: the low one below (spec/20_memory.md R53). -/
theorem getLsbD_nibbles (h l : Nibble) (i : Nat) :
    (h ++ l : Block).getLsbD i = if i < 4 then l.getLsbD i else h.getLsbD (i - 4) :=
  BitVec.getLsbD_append

@[simp] theorem highNibble_append (h l : Nibble) : highNibble (h ++ l) = h := by
  ext i hi
  rw [highNibble, BitVec.getElem_extractLsb', getLsbD_nibbles, if_neg (by omega), show 4 + i - 4 = i by omega,
    BitVec.getLsbD_eq_getElem]

@[simp] theorem lowNibble_append (h l : Nibble) : lowNibble (h ++ l) = l := by
  ext i hi
  rw [lowNibble, BitVec.getElem_extractLsb', getLsbD_nibbles, if_pos (by omega), show 0 + i = i by omega,
    BitVec.getLsbD_eq_getElem]

/-- A block is its high nibble and its low nibble (spec/20_memory.md R53). -/
theorem highNibble_append_lowNibble : ∀ b : Block, (highNibble b ++ lowNibble b : Block) = b := by decide +kernel

/-- Two blocks with the same nibbles are equal. -/
theorem block_eq_of_nibbles {a b : Block} (hh : highNibble a = highNibble b) (hl : lowNibble a = lowNibble b) :
    a = b := by
  rw [← highNibble_append_lowNibble a, ← highNibble_append_lowNibble b, hh, hl]

/-- The high output lane depends on the high input lane only (spec/40_primitives.md R105). -/
@[simp] theorem highNibble_substitute (b : Block) (t : Vector (Fin 16) 16) :
    highNibble (substitute b t) = lookup t (highNibble b) := highNibble_append _ _

/-- The low output lane depends on the low input lane only (spec/40_primitives.md R105). -/
@[simp] theorem lowNibble_substitute (b : Block) (t : Vector (Fin 16) 16) :
    lowNibble (substitute b t) = lookup t (lowNibble b) := lowNibble_append _ _

/-- A table that undoes another entry by entry undoes it on every nibble. -/
theorem lookup_lookup {t u : Vector (Fin 16) 16} (h : ∀ i, u.get (t.get i) = i) (n : Nibble) :
    lookup u (lookup t n) = n := by
  have hx : lookup u (lookup t n) = (BitVec.ofFin (u.get (t.get n.toFin)) : Nibble) := rfl
  rw [hx, h]

/-- Bit i of `permute(b, T)` is `b[T[i]]` (spec/40_primitives.md R112). -/
@[simp] theorem getLsb_permute (b : Block) (t : Vector (Fin 8) 8) (i : Fin 8) :
    (permute b t).getLsb i = b.getLsb (t.get i) := BitVec.getLsb_ofFnLE _ i

/-- Two blocks with the same eight bits are equal. -/
theorem block_eq_of_getLsb {a b : Block} (h : ∀ i : Fin 8, a.getLsb i = b.getLsb i) : a = b := by
  ext i hi
  exact h ⟨i, hi⟩

/-- Byte i of the key is round key i (spec/20_memory.md R52). -/
@[simp] theorem get_roundKeys (key : Key) (i : Fin 4) : (roundKeys key).get i = key.extractLsb' (8 * i.val) 8 := by
  simp [roundKeys, Vector.get_eq_getElem]

/-! The sequences of spec/30_encoding.md R76 as micro-operations. -/

theorem microOps_enc : microOps .enc =
    [.xk 0, .sub, .perm, .xk 1, .sub, .perm, .xk 2, .sub, .perm, .xk 3, .sub, .xk 0] := by decide

theorem microOps_dec : microOps .dec =
    [.xk 0, .isub, .xk 3, .iperm, .isub, .xk 2, .iperm, .isub, .xk 1, .iperm, .isub, .xk 0] := by decide

end Sys2Proof.Machine
end

