-- ==== Sys2Proof/Laws/Encoding.lean ====
section
/-! SUPPORT. The fields of the words (spec/30_encoding.md R72, R74). -/

namespace Sys2Proof

/-- Bit by bit, the command word is the block, the key and the mode bit (R72). -/
theorem getLsbD_packCmd (m : BitVec 1) (key : Key) (din : Block) (i : Nat) :
    (packCmd m key din).getLsbD i =
      if i < 8 then din.getLsbD i else if i < 40 then key.getLsbD (i - 8) else m.getLsbD (i - 40) := by
  have h1 : (packCmd m key din).getLsbD i = if i < 8 then din.getLsbD i else (m ++ key).getLsbD (i - 8) :=
    BitVec.getLsbD_append
  rw [h1, BitVec.getLsbD_append]
  split
  · rfl
  · by_cases h : i < 40
    · rw [if_pos (by omega), if_pos h]
    · rw [if_neg (by omega), if_neg h, show i - 8 - 32 = i - 40 by omega]

@[simp] theorem packCmd_key (m : BitVec 1) (key : Key) (din : Block) :
    (packCmd m key din).extractLsb' 8 32 = key := by
  ext i hi
  rw [BitVec.getElem_extractLsb', getLsbD_packCmd, if_neg (by omega), if_pos (by omega),
    show 8 + i - 8 = i by omega, BitVec.getLsbD_eq_getElem]

@[simp] theorem packCmd_din (m : BitVec 1) (key : Key) (din : Block) :
    (packCmd m key din).extractLsb' 0 8 = din := by
  ext i hi
  rw [BitVec.getElem_extractLsb', getLsbD_packCmd, if_pos (by omega), show 0 + i = i by omega,
    BitVec.getLsbD_eq_getElem]

@[simp] theorem packCmd_mode (m : BitVec 1) (key : Key) (din : Block) :
    (packCmd m key din).extractLsb' 40 1 = m := by
  ext i hi
  rw [BitVec.getElem_extractLsb', getLsbD_packCmd, if_neg (by omega), if_neg (by omega),
    show 40 + i - 40 = i by omega, BitVec.getLsbD_eq_getElem]

/-- A micro-operation word is its two fields. -/
theorem UopWord.ext_fields : ∀ w : UopWord, w = w.cls ++ w.kidx := by decide

/-- The decoder refuses exactly the reserved words. -/
theorem decodeUop_isOk : ∀ w : UopWord, (decodeUop w).isOk = !w.reserved := by decide

/-- The command on the ports decodes to the command of its mode (spec/30_encoding.md R70, R72). -/
theorem decodeCmd_cmdWordOf (p : Ports) :
    decodeCmd (Machine.cmdWordOf p) =
      match p.mode with
      | .enc => .enc p.key p.din
      | .dec => .dec p.key p.din := by
  cases hm : p.mode <;> simp [decodeCmd, Machine.cmdWordOf, Machine.modeBit, hm]

/-- No two rows of the opcode table overlap. -/
theorem opcodeTable_disjoint : opcodeTable.Pairwise fun a b => a.overlaps b = false := by decide

end Sys2Proof
end

