-- ==== Sys2Proof/Laws/State.lean ====
section
/-! SUPPORT. One lemma per field per register update, so that no later proof unfolds a record update. -/

namespace Sys2Proof.Machine

/-! The passing of an edge changes the model's own fields only. -/

@[simp] theorem State.tick_cfg (s : State) : s.tick.cfg = s.cfg := rfl
@[simp] theorem State.tick_phase (s : State) : s.tick.phase = s.phase := rfl
@[simp] theorem State.tick_step (s : State) : s.tick.step = s.step := rfl
@[simp] theorem State.tick_opMode (s : State) : s.tick.opMode = s.opMode := rfl
@[simp] theorem State.tick_st (s : State) : s.tick.st = s.st := rfl
@[simp] theorem State.tick_rk (s : State) : s.tick.rk = s.rk := rfl
@[simp] theorem State.tick_doutR (s : State) : s.tick.doutR = s.doutR := rfl
@[simp] theorem State.tick_doneR (s : State) : s.tick.doneR = s.doneR := rfl
@[simp] theorem State.tick_resetSeen (s : State) : s.tick.resetSeen = s.resetSeen := rfl
@[simp] theorem State.tick_inputs (s : State) : s.tick.inputs = s.inputs.tail := rfl
@[simp] theorem State.tick_edge (s : State) : s.tick.edge = s.edge + 1 := rfl

/-! The accept edge (spec/41_pipeline.md R132). -/

@[simp] theorem State.accept_cfg (m : Mode) (key : Key) (din : Block) (s : State) : (s.accept m key din).cfg = s.cfg := rfl
@[simp] theorem State.accept_phase (m : Mode) (key : Key) (din : Block) (s : State) : (s.accept m key din).phase = .run := rfl
@[simp] theorem State.accept_step (m : Mode) (key : Key) (din : Block) (s : State) : (s.accept m key din).step = 0#4 := rfl
@[simp] theorem State.accept_opMode (m : Mode) (key : Key) (din : Block) (s : State) : (s.accept m key din).opMode = m := rfl
@[simp] theorem State.accept_st (m : Mode) (key : Key) (din : Block) (s : State) : (s.accept m key din).st = din := rfl
@[simp] theorem State.accept_rk (m : Mode) (key : Key) (din : Block) (s : State) : (s.accept m key din).rk = roundKeys key := rfl
@[simp] theorem State.accept_doutR (m : Mode) (key : Key) (din : Block) (s : State) : (s.accept m key din).doutR = s.doutR := rfl
@[simp] theorem State.accept_doneR (m : Mode) (key : Key) (din : Block) (s : State) : (s.accept m key din).doneR = false := rfl
@[simp] theorem State.accept_resetSeen (m : Mode) (key : Key) (din : Block) (s : State) : (s.accept m key din).resetSeen = s.resetSeen := rfl
@[simp] theorem State.accept_inputs (m : Mode) (key : Key) (din : Block) (s : State) : (s.accept m key din).inputs = s.inputs := rfl
@[simp] theorem State.accept_edge (m : Mode) (key : Key) (din : Block) (s : State) : (s.accept m key din).edge = s.edge := rfl

/-! The reset edge (spec/70_reset_and_hazards.md R200). -/

@[simp] theorem State.resetRegisters_cfg (s : State) : s.resetRegisters.cfg = s.cfg := rfl
@[simp] theorem State.resetRegisters_phase (s : State) : s.resetRegisters.phase = .idle := rfl
@[simp] theorem State.resetRegisters_step (s : State) : s.resetRegisters.step = 0#4 := rfl
@[simp] theorem State.resetRegisters_opMode (s : State) : s.resetRegisters.opMode = .enc := rfl
@[simp] theorem State.resetRegisters_st (s : State) : s.resetRegisters.st = 0x00#8 := rfl
@[simp] theorem State.resetRegisters_rk (s : State) : s.resetRegisters.rk = #v[0x00#8, 0x00#8, 0x00#8, 0x00#8] := rfl
@[simp] theorem State.resetRegisters_doutR (s : State) : s.resetRegisters.doutR = 0x00#8 := rfl
@[simp] theorem State.resetRegisters_doneR (s : State) : s.resetRegisters.doneR = false := rfl
@[simp] theorem State.resetRegisters_resetSeen (s : State) : s.resetRegisters.resetSeen = true := rfl
@[simp] theorem State.resetRegisters_inputs (s : State) : s.resetRegisters.inputs = s.inputs := rfl
@[simp] theorem State.resetRegisters_edge (s : State) : s.resetRegisters.edge = s.edge := rfl

/-! The write-back of a micro-operation edge (spec/41_pipeline.md R133, R134): `st` always, and the completion's writes
at step 11 only. -/

@[simp] theorem State.writeBack_cfg (v : Block) (s : State) : (s.writeBack v).cfg = s.cfg := by
  unfold State.writeBack; split <;> simp_all
@[simp] theorem State.writeBack_phase (v : Block) (s : State) : (s.writeBack v).phase = if s.step = 11#4 then .idle else s.phase := by
  unfold State.writeBack; split <;> simp_all
@[simp] theorem State.writeBack_step (v : Block) (s : State) : (s.writeBack v).step = if s.step = 11#4 then 0#4 else s.step + 1#4 := by
  unfold State.writeBack; split <;> simp_all
@[simp] theorem State.writeBack_opMode (v : Block) (s : State) : (s.writeBack v).opMode = s.opMode := by
  unfold State.writeBack; split <;> simp_all
@[simp] theorem State.writeBack_st (v : Block) (s : State) : (s.writeBack v).st = v := by
  unfold State.writeBack; split <;> simp_all
@[simp] theorem State.writeBack_rk (v : Block) (s : State) : (s.writeBack v).rk = s.rk := by
  unfold State.writeBack; split <;> simp_all
@[simp] theorem State.writeBack_doutR (v : Block) (s : State) : (s.writeBack v).doutR = if s.step = 11#4 then v else s.doutR := by
  unfold State.writeBack; split <;> simp_all
@[simp] theorem State.writeBack_doneR (v : Block) (s : State) : (s.writeBack v).doneR = if s.step = 11#4 then true else s.doneR := by
  unfold State.writeBack; split <;> simp_all
@[simp] theorem State.writeBack_resetSeen (v : Block) (s : State) : (s.writeBack v).resetSeen = s.resetSeen := by
  unfold State.writeBack; split <;> simp_all
@[simp] theorem State.writeBack_inputs (v : Block) (s : State) : (s.writeBack v).inputs = s.inputs := by
  unfold State.writeBack; split <;> simp_all
@[simp] theorem State.writeBack_edge (v : Block) (s : State) : (s.writeBack v).edge = s.edge := by
  unfold State.writeBack; split <;> simp_all

/-! What the port sample of the coming edge depends on. -/

@[simp] theorem State.ports_cons {s : State} {p : Ports} {ps : List Ports} (h : s.inputs = p :: ps) :
    s.ports = p := by
  simp [State.ports, h]

/-- The reset state's registers are what a reset edge leaves (R40). -/
theorem State.resetRegisters_eq_reset (s : State) :
    s.resetRegisters =
      { Sys2Proof.Machine.State.reset with cfg := s.cfg, inputs := s.inputs, edge := s.edge } := rfl

end Sys2Proof.Machine
end

