-- ==== Sys2Proof/Laws/Edge.lean ====
section
/-! SUPPORT. What the shared operations and one edge can do, said once each. -/

namespace Sys2Proof.Machine

/-- The guard lets exactly the legal states through (spec/10_state.md R39, spec/70_reset_and_hazards.md R204). -/
theorem guard_eq_none_iff {s : State} : s.guard = none ↔ s.Legal := by
  have h12 : ∀ x : BitVec 4, 12#4 ≤ x ↔ ¬ x.toNat ≤ 11 := by decide
  unfold State.guard State.Legal State.busy State.done
  cases hr : s.resetSeen <;> cases hp : s.phase <;> simp only [h12] <;> by_cases hs : s.step.toNat ≤ 11 <;>
    simp [hs]

/-- The instruction of a micro-operation means that micro-operation's edge. -/
@[simp] theorem exec_toInstr (u : MicroOp) (s : State) : exec u.toInstr s = microOpEdge u s := by
  cases u <;> rfl

@[simp] theorem microOpOf_toInstr (u : MicroOp) : microOpOf u.toInstr = some u := by
  cases u <;> rfl

/-- A micro-operation edge answers a next state exactly in a legal state in RUN, and writes its result back. -/
theorem microOpEdge_eq_next_iff {u : MicroOp} {s t : State} :
    microOpEdge u s = .next t ↔ s.Legal ∧ s.phase = .run ∧ t = s.writeBack (u.apply s.cfg s.rk s.st) := by
  unfold microOpEdge
  rw [← guard_eq_none_iff]
  cases s.guard <;> cases s.phase <;> simp [eq_comm]

/-- The micro-operation edge of a legal state in RUN. -/
theorem microOpEdge_run {u : MicroOp} {s : State} (hl : s.Legal) (hp : s.phase = .run) :
    microOpEdge u s = .next (s.writeBack (u.apply s.cfg s.rk s.st)) :=
  microOpEdge_eq_next_iff.mpr ⟨hl, hp, rfl⟩

/-- At every step from 0 to 11 the ROM holds a word of the micro-operation that the sequence has there
(spec/30_encoding.md R76). -/
theorem romWord_decodes (m : Mode) (i : BitVec 4) (h : i.toNat ≤ 11) :
    ∃ w u, romWord m i = some w ∧ decodeUop w = .ok u.toInstr ∧ (microOps m)[i.toNat]? = some u := by
  have key : ∀ m, ∀ i : BitVec 4, i.toNat ≤ 11 →
      ((romWord m i).bind fun w => (decodeUop w).toOption) = ((microOps m)[i.toNat]?).map MicroOp.toInstr ∧
      ((microOps m)[i.toNat]?).isSome = true := by
    intro m
    cases m <;> decide
  obtain ⟨h1, h2⟩ := key m i h
  obtain ⟨u, hu⟩ := Option.isSome_iff_exists.mp h2
  rw [hu, Option.map_some, Option.bind_eq_some_iff] at h1
  obtain ⟨w, hw, hd⟩ := h1
  refine ⟨w, u, hw, ?_, hu⟩
  cases hdw : decodeUop w with
  | error e => rw [hdw] at hd; cases hd
  | ok i => rw [hdw] at hd; cases hd; rfl

/-- In a legal state in RUN the edge is that of the micro-operation at `step` (spec/41_pipeline.md R133). -/
theorem runEdge_run {s : State} (hl : s.Legal) (hp : s.phase = .run) :
    ∃ u, (microOps s.opMode)[s.step.toNat]? = some u ∧
      runEdge s = .next (s.writeBack (u.apply s.cfg s.rk s.st)) := by
  obtain ⟨w, u, hw, hd, hu⟩ := romWord_decodes s.opMode s.step (hl.2.2.1 hp)
  refine ⟨u, hu, ?_⟩
  simp only [runEdge, hw, hd]
  simpa [Except.toOption] using microOpEdge_run (u := u) hl hp

/-- A command presented in a legal state in IDLE is accepted (R132). -/
theorem commandEdge_idle {m : Mode} {key : Key} {din : Block} {s : State} (hl : s.Legal) (hp : s.phase = .idle) :
    commandEdge m key din s = .next (s.accept m key din) := by
  simp [commandEdge, guard_eq_none_iff.mpr hl, hp]

/-- A command presented in a legal state in RUN is ignored (R135). -/
theorem commandEdge_run {m : Mode} {key : Key} {din : Block} {s : State} (hl : s.Legal) (hp : s.phase = .run) :
    commandEdge m key din s = runEdge s := by
  simp [commandEdge, guard_eq_none_iff.mpr hl, hp]

/-- A command edge answers a next state in a legal state only, and then accepts in IDLE or runs on in RUN. -/
theorem commandEdge_next {m : Mode} {key : Key} {din : Block} {s t : State}
    (h : commandEdge m key din s = .next t) :
    s.Legal ∧ ((s.phase = .idle ∧ t = s.accept m key din) ∨
      (s.phase = .run ∧ ∃ u, (microOps s.opMode)[s.step.toNat]? = some u ∧
        t = s.writeBack (u.apply s.cfg s.rk s.st))) := by
  have hl : s.Legal := by
    rw [← guard_eq_none_iff]
    unfold commandEdge at h
    split at h
    · cases h
    · assumption
  refine ⟨hl, ?_⟩
  cases hp : s.phase with
  | idle => rw [commandEdge_idle hl hp] at h; cases h; exact .inl ⟨rfl, rfl⟩
  | run =>
    obtain ⟨u, hu, hr⟩ := runEdge_run hl hp
    rw [commandEdge_run hl hp, hr] at h
    cases h
    exact .inr ⟨rfl, u, hu, rfl⟩

/-- A reset edge, from any state (R200, R201). -/
theorem step_reset {s : State} (hr : s.ports.rst = true) : step s = .next s.resetRegisters.tick := by
  simp [step, clockEdge, hr]

/-- An edge that is no reset edge, in a legal state: hold, accept or execute (R130, R177). -/
theorem step_legal {s : State} (hl : s.Legal) (hr : s.ports.rst = false) :
    (s.phase = .idle ∧ s.ports.start = false ∧ step s = .next s.tick) ∨
    (s.phase = .idle ∧ s.ports.start = true ∧
      step s = .next (s.accept s.ports.mode s.ports.key s.ports.din).tick) ∨
    (s.phase = .run ∧ ∃ u, (microOps s.opMode)[s.step.toNat]? = some u ∧
      step s = .next (s.writeBack (u.apply s.cfg s.rk s.st)).tick) := by
  have hg := guard_eq_none_iff.mpr hl
  cases hp : s.phase with
  | idle =>
    cases hs : s.ports.start with
    | false => exact .inl ⟨rfl, rfl, by simp [step, clockEdge, hr, fetch, hg, hp, hs]⟩
    | true =>
      refine .inr (.inl ⟨rfl, rfl, ?_⟩)
      have he : executeWord (.cmd (cmdWordOf s.ports)) s =
          .next (s.accept s.ports.mode s.ports.key s.ports.din) := by
        simp only [executeWord, decode, decodeCmd_cmdWordOf]
        cases s.ports.mode
        · exact commandEdge_idle hl hp
        · exact commandEdge_idle hl hp
      simp [step, clockEdge, hr, fetch, hg, hp, hs, he, mapNext]
  | run =>
    obtain ⟨w, u, hw, hd, hu⟩ := romWord_decodes s.opMode s.step (hl.2.2.1 hp)
    refine .inr (.inr ⟨rfl, u, hu, ?_⟩)
    simp [step, clockEdge, hr, fetch, hg, hp, hw, executeWord, decode, hd, microOpEdge_run hl hp, mapNext]

/-- An edge that is no reset edge is refused in a state that is not legal, for the guard's reason. -/
theorem step_refused {s : State} {r : Refusal} (hr : s.ports.rst = false) (hg : s.guard = some r) :
    step s = .refused r := by
  simp [step, clockEdge, hr, fetch, hg]

/-- Everything a step that answers a next state can have done (R130). -/
theorem step_next_cases {s t : State} (h : step s = .next t) :
    (s.ports.rst = true ∧ t = s.resetRegisters.tick) ∨
    (s.ports.rst = false ∧ s.Legal ∧ s.phase = .idle ∧ s.ports.start = false ∧ t = s.tick) ∨
    (s.ports.rst = false ∧ s.Legal ∧ s.phase = .idle ∧ s.ports.start = true ∧
      t = (s.accept s.ports.mode s.ports.key s.ports.din).tick) ∨
    (s.ports.rst = false ∧ s.Legal ∧ s.phase = .run ∧
      ∃ u, (microOps s.opMode)[s.step.toNat]? = some u ∧ t = (s.writeBack (u.apply s.cfg s.rk s.st)).tick) := by
  cases hr : s.ports.rst with
  | true => rw [step_reset hr] at h; cases h; exact .inl ⟨rfl, rfl⟩
  | false =>
    cases hg : s.guard with
    | some r => rw [step_refused hr hg] at h; cases h
    | none =>
      have hl := guard_eq_none_iff.mp hg
      rcases step_legal hl hr with ⟨hp, hs, e⟩ | ⟨hp, hs, e⟩ | ⟨hp, u, hu, e⟩ <;> rw [e] at h <;> cases h
      · exact .inr (.inl ⟨rfl, hl, hp, hs, rfl⟩)
      · exact .inr (.inr (.inl ⟨rfl, hl, hp, hs, rfl⟩))
      · exact .inr (.inr (.inr ⟨rfl, hl, hp, u, hu, rfl⟩))

/-! Legal states (R39) after each register update. -/

theorem legal_tick {s : State} (h : s.Legal) : s.tick.Legal := h

theorem legal_resetRegisters (s : State) : s.resetRegisters.Legal := by
  simp [State.Legal, State.busy]

theorem legal_accept {m : Mode} {key : Key} {din : Block} {s : State} (h : s.Legal) :
    (s.accept m key din).Legal := by
  simp [State.Legal, State.busy, State.done, h.1]

/-- A legal state in RUN is not done. -/
theorem doneR_of_run {s : State} (h : s.Legal) (hp : s.phase = .run) : s.doneR = false := by
  simpa [State.busy, State.done, hp] using h.2.2.2

theorem legal_writeBack {v : Block} {s : State} (h : s.Legal) (hp : s.phase = .run) : (s.writeBack v).Legal := by
  have hx : ∀ x : BitVec 4, x.toNat ≤ 11 → x ≠ 11#4 → (x + 1#4).toNat ≤ 11 := by decide
  by_cases h11 : s.step = 11#4
  · simp [State.Legal, State.busy, h11, h.1]
  · have := hx _ (h.2.2.1 hp) h11
    rw [State.Legal, State.busy, State.done]
    simp only [State.writeBack_resetSeen, State.writeBack_phase, State.writeBack_step, State.writeBack_doneR, h11,
      if_false, h.1, hp, doneR_of_run h hp]
    simpa using this

/-! Edges driven one by one (spec/30_encoding.md R80). -/

/-- The state with the number of the coming edge advanced: what an edge driven from outside the schedule adds. -/
def State.skipEdge (s : State) : State := { s with edge := s.edge + 1 }

/-- An edge driven with given port values is a step with them in front of the schedule. -/
theorem drive_eq (p : Ports) (s : State) : drive p s = step { s with inputs := p :: s.inputs } := rfl

theorem drive_reset {p : Ports} {s : State} (hr : p.rst = true) : drive p s = .next s.resetRegisters.skipEdge :=
  step_reset (s := { s with inputs := p :: s.inputs }) hr

theorem drive_hold {p : Ports} {s : State} (hl : s.Legal) (hp : s.phase = .idle) (hr : p.rst = false)
    (hs : p.start = false) : drive p s = .next s.skipEdge := by
  rcases step_legal (s := { s with inputs := p :: s.inputs }) hl hr with ⟨_, _, e⟩ | ⟨_, h, _⟩ | ⟨h, _⟩
  · exact e
  · exact absurd (hs.symm.trans h) (by decide)
  · exact absurd (hp.symm.trans h) (by decide)

theorem drive_accept {p : Ports} {s : State} (hl : s.Legal) (hp : s.phase = .idle) (hr : p.rst = false)
    (hs : p.start = true) : drive p s = .next (s.accept p.mode p.key p.din).skipEdge := by
  rcases step_legal (s := { s with inputs := p :: s.inputs }) hl hr with ⟨_, h, _⟩ | ⟨_, _, e⟩ | ⟨h, _⟩
  · exact absurd (hs.symm.trans h) (by decide)
  · exact e
  · exact absurd (hp.symm.trans h) (by decide)

theorem drive_run {p : Ports} {s : State} (hl : s.Legal) (hp : s.phase = .run) (hr : p.rst = false) :
    ∃ u, (microOps s.opMode)[s.step.toNat]? = some u ∧
      drive p s = .next (s.writeBack (u.apply s.cfg s.rk s.st)).skipEdge := by
  rcases step_legal (s := { s with inputs := p :: s.inputs }) hl hr with ⟨h, _⟩ | ⟨h, _⟩ | ⟨_, u, hu, e⟩
  · exact absurd (hp.symm.trans h) (by decide)
  · exact absurd (hp.symm.trans h) (by decide)
  · refine ⟨u, hu, e.trans ?_⟩
    unfold State.writeBack
    by_cases h : s.step = 11#4 <;> simp [h] <;> rfl

@[simp] theorem driveAll_nil (s : State) : driveAll [] s = .next s := rfl

/-- Driving one more edge. -/
theorem driveAll_cons {p : Ports} {ps : List Ports} {s t : State} (h : drive p s = .next t) :
    driveAll (p :: ps) s = driveAll ps t := by
  simp [driveAll, h]

/-- The machine's runs, in the model's own names. -/
theorem core_run_zero (s : State) : Sys2Proof.core.run 0 s = .next s := rfl

theorem core_run_succ {n : Nat} {s t : State} (h : step s = .next t) :
    Sys2Proof.core.run (n + 1) s = Sys2Proof.core.run n t := by
  have h' : Sys2Proof.core.step s = .next t := h
  simp [Host.Core.run, h']

end Sys2Proof.Machine
end

