-- ==== Sys2Proof/Laws/PerInstr.lean ====
section
/-! SUPPORT. Per-instruction statements about the instructions as syntax. -/

/-- The word of an instruction carries the width and the fixed bits of the instruction's row of
spec/opcode_table.json, and no other row's. -/
def Sys2Proof.Laws.CarriesItsRow.Statement (i : Sys2Proof.Instr) : Prop :=
  (Sys2Proof.opcodeTable.filter fun r =>
    r.width == (Sys2Proof.encode i).bits.1 && ((Sys2Proof.encode i).bits.2 &&& r.mask) == r.fixed).map
      Sys2Proof.TableRow.mnemonic = [i.mnemonic]

namespace Sys2Proof.Laws.CarriesItsRow

/-- Bit 40 of a command word, as the opcode table masks it. -/
theorem packCmd_mask (m : BitVec 1) (key : Key) (din : Block) :
    (packCmd m key din).toNat &&& 0x10000000000 = if m = 1#1 then 0x10000000000 else 0 := by
  have h : (packCmd m key din) &&& 0x10000000000#41 = if m = 1#1 then 0x10000000000#41 else 0#41 := by
    ext i hi
    have hm : ∀ m : BitVec 1, (m = 1#1) = (m.getLsbD 0 = true) := by decide
    have hb : ∀ i, i < 41 → (0x10000000000#41).getLsbD i = decide (i = 40) := by decide
    rw [BitVec.getElem_and, ← BitVec.getLsbD_eq_getElem, ← BitVec.getLsbD_eq_getElem, getLsbD_packCmd, hb i hi]
    by_cases h40 : i = 40
    · subst h40
      by_cases h1 : m = 1#1
      · subst h1; simp
      · have h0 : m.getLsbD 0 = false := by rw [hm] at h1; simpa using h1
        simpa [h1] using h0
    · by_cases h1 : m = 1#1
      · rw [if_pos h1, ← BitVec.getLsbD_eq_getElem, hb i hi]; simp [h40]
      · rw [if_neg h1]; simp [h40]
  have h' := congrArg BitVec.toNat h
  rw [BitVec.toNat_and] at h'
  simp only [apply_ite BitVec.toNat] at h'
  simpa using h'

theorem enc (key : Key) (din : Block) : Statement (.enc key din) := by
  simp [Statement, opcodeTable, encode, CodeWord.bits, packCmd_mask, Instr.mnemonic]

theorem dec (key : Key) (din : Block) : Statement (.dec key din) := by
  simp [Statement, opcodeTable, encode, CodeWord.bits, packCmd_mask, Instr.mnemonic]

theorem xk (kidx : BitVec 2) : Statement (.xk kidx) := by
  revert kidx
  unfold Statement
  decide

theorem sub : Statement .sub := by unfold Statement; decide

theorem isub : Statement .isub := by unfold Statement; decide

theorem perm : Statement .perm := by unfold Statement; decide

theorem iperm : Statement .iperm := by unfold Statement; decide

end Sys2Proof.Laws.CarriesItsRow
end

