-- ==== Sys2Proof/Tests/Slice0.lean ====
section
/-! SUPPORT. Tests of single operations and single edges, with the expected values of spec/95_test_vectors.md and of the
worked examples of spec/40_primitives.md and spec/41_pipeline.md; and for every statement of
Certificates/Slice0/Obligations.lean that has hypotheses, a witness that meets them. -/

namespace Sys2Proof.Tests

open Sys2Proof.Machine

/-! ## Helpers -/

/-- The next state of an outcome, if it is one. -/
def nextOf : Host.Outcome State Fault Refusal → Option State
  | .next s => some s
  | .fault _ => none
  | .refused _ => none

/-- The refusal of an outcome, if it is one. -/
def refusalOf : Host.Outcome State Fault Refusal → Option Refusal
  | .next _ => none
  | .fault _ => none
  | .refused r => some r

/-- Port values with no reset and no request. -/
def quiet : Ports := ⟨false, false, .enc, 0#8, 0#32⟩

/-- Port values of a reset edge. -/
def resetting : Ports := ⟨true, true, .dec, 0x12#8, 0x34#32⟩

/-- Port values of a request for `DEC 0xBF, 0xB2`. -/
def asking : Ports := ⟨false, true, .dec, 0xBF#8, 0xB2#32⟩

/-- IDLE with a result shown, under SBOX_T, and the given port values at the coming edge. -/
def idleWith (p : Ports) : State :=
  { State.reset with cfg := Config.sboxT, doneR := true, doutR := 0xBF#8, inputs := [p] }

/-- RUN at the given place of a sequence, under SBOX_T, with round keys B2 00 FF 12. -/
def runAt (m : Mode) (i : BitVec 4) (b : Block) (p : Ports) : State :=
  { State.reset with
    cfg := Config.sboxT, phase := .run, opMode := m, step := i, st := b, rk := #v[0xB2#8, 0x00#8, 0xFF#8, 0x12#8],
    inputs := [p] }

/-- A state before the first reset edge, with register values that no rule gives. -/
def poweredUp (p : Ports) : State :=
  { runAt .dec 9#4 0x77#8 p with resetSeen := false, doneR := true, doutR := 0x99#8 }

/-! ## Well-formedness: each check refuses an ill-formed term -/

theorem test_wellFormed_refuses_class_101 : (CodeWord.uop 0b10100#5).wellFormed = false := by decide
theorem test_wellFormed_refuses_class_110 : (CodeWord.uop 0b11000#5).wellFormed = false := by decide
theorem test_wellFormed_refuses_class_111 : (CodeWord.uop 0b11111#5).wellFormed = false := by decide
theorem test_wellFormed_refuses_sub_with_index : (CodeWord.uop 0b00101#5).wellFormed = false := by decide
theorem test_wellFormed_refuses_iperm_with_index : (CodeWord.uop 0b10011#5).wellFormed = false := by decide
theorem test_wellFormed_takes_xk3 : (CodeWord.uop 0b00011#5).wellFormed = true := by decide
theorem test_sequence_refuses_eleven_words : wellFormedSequence (encSeq.take 11) = false := by decide
theorem test_sequence_refuses_reserved_word :
    wellFormedSequence (encSeq.set 4 0b00110#5) = false := by decide
theorem test_sequences_well_formed :
    wellFormedSequence encSeq = true ∧ wellFormedSequence decSeq = true := by decide

/-! ## Decoding: words written out from spec/30_encoding.md R72, R75 and spec/95_test_vectors.md section 3 -/

theorem test_decode_xk :
    decode (.uop 0b00000#5) = .ok (.xk 0) ∧ decode (.uop 0b00001#5) = .ok (.xk 1) ∧
    decode (.uop 0b00010#5) = .ok (.xk 2) ∧ decode (.uop 0b00011#5) = .ok (.xk 3) := by decide
theorem test_decode_sub : decode (.uop 0b00100#5) = .ok .sub := by decide
theorem test_decode_isub : decode (.uop 0b01000#5) = .ok .isub := by decide
theorem test_decode_perm : decode (.uop 0b01100#5) = .ok .perm := by decide
theorem test_decode_iperm : decode (.uop 0b10000#5) = .ok .iperm := by decide
theorem test_decode_enc_P1 : decode (.cmd 0x0000000B255#41) = .ok (.enc 0xB2#32 0x55#8) := by decide
theorem test_decode_enc_P2 : decode (.cmd 0x0123456783C#41) = .ok (.enc 0x12345678#32 0x3C#8) := by decide
theorem test_decode_dec_P1 : decode (.cmd 0x1000000B2BF#41) = .ok (.dec 0xB2#32 0xBF#8) := by decide
theorem test_decode_dec_P2 : decode (.cmd 0x1DEADBEEF00#41) = .ok (.dec 0xDEADBEEF#32 0x00#8) := by decide
theorem test_decode_refuses_by_name :
    decode (.uop 0b10110#5) = .error (.badClass 0b10110#5) ∧
    decode (.uop 0b01110#5) = .error (.badIndex 0b01110#5) := by decide
theorem test_encode_words :
    encode (.enc 0xB2#32 0x55#8) = .cmd 0x0000000B255#41 ∧ encode (.dec 0xB2#32 0xBF#8) = .cmd 0x1000000B2BF#41 ∧
    encode (.xk 2) = .uop 0b00010#5 ∧ encode .sub = .uop 0b00100#5 ∧ encode .isub = .uop 0b01000#5 ∧
    encode .perm = .uop 0b01100#5 ∧ encode .iperm = .uop 0b10000#5 := by decide

/-- The rows as spec/opcode_table.json numbers their bits, in whole bytes. -/
theorem test_decodeTableWord_rows :
    decodeTableWord 48 0x00000000000 = some (.enc 0 0) ∧ decodeTableWord 48 0x10000000000 = some (.dec 0 0) ∧
    decodeTableWord 8 0x00 = some (.xk 0) ∧ decodeTableWord 8 0x04 = some .sub ∧
    decodeTableWord 8 0x08 = some .isub ∧ decodeTableWord 8 0x0C = some .perm ∧
    decodeTableWord 8 0x10 = some .iperm := by decide
theorem test_decodeTableWord_refuses :
    decodeTableWord 8 0x20 = none ∧ decodeTableWord 8 0x14 = none ∧ decodeTableWord 48 0x20000000000 = none ∧
    decodeTableWord 4 0 = none ∧ decodeBits 8 0x05 = .error (.reserved (.badIndex 0b00101#5)) ∧
    decodeBits 8 0x20 = .error (.noSuchWord 8 0x20) := by decide

/-- A placed word is fetched by the next step after reset. -/
theorem test_fetch_placed :
    fetch (State.reset.withFetchWord 48 0x1000000B2BF) = .ok (some (.cmd 0x1000000B2BF#41)) ∧
    fetch (State.reset.withFetchWord 8 0x03) = .ok (some (.uop 0b00011#5)) ∧
    fetch (State.reset.withFetchWord 8 0x10) = .ok (some (.uop 0b10000#5)) := by decide
theorem test_step_placed_sub :
    ((nextOf (step (State.reset.withFetchWord 8 0x04))).map fun t => (t.step, t.phase)) = some (2#4, .run) := by
  decide

/-! ## Tables and elaboration: spec/95_test_vectors.md section 2.7 -/

theorem test_inverse_sboxT :
    invSboxTable Config.sboxT = #v[11, 2, 9, 0, 7, 14, 5, 12, 3, 10, 1, 8, 15, 6, 13, 4] := by decide
theorem test_inverse_sboxId : invSboxTable Config.sboxId = Config.sboxId.sbox := by decide
theorem test_inverse_perm : invPermTable = #v[3, 0, 2, 4, 6, 1, 7, 5] := by decide
theorem test_elaborate_ok :
    elaborate Config.sboxT.sbox permTable =
      .ok ⟨Config.sboxT.sbox, invSboxTable Config.sboxT, permTable, invPermTable⟩ := by decide
theorem test_elaborate_refuses_sbox_15_is_0 :
    elaborate #v[0, 1, 2, 3, 4, 5, 6, 7, 8, 9, 10, 11, 12, 13, 14, 0] permTable = .error (.sboxNotBijective 0) := by
  decide
theorem test_elaborate_refuses_sboxT_15_is_5 :
    elaborate #v[3, 10, 1, 8, 15, 6, 13, 4, 11, 2, 9, 0, 7, 14, 5, 5] permTable = .error (.sboxNotBijective 5) := by
  decide
theorem test_elaborate_refuses_perm_0 :
    elaborate Config.sboxId.sbox #v[0, 0, 2, 3, 4, 5, 6, 7] = .error (.permNotPermutation 0) := by decide
theorem test_elaborate_refuses_perm_4 :
    elaborate Config.sboxId.sbox #v[1, 5, 2, 0, 3, 7, 4, 4] = .error (.permNotPermutation 4) := by decide

/-! ## Operands: spec/95_test_vectors.md section 2.1 -/

theorem test_roundKeys :
    roundKeys 0x12345678#32 = #v[0x78#8, 0x56#8, 0x34#8, 0x12#8] ∧
    roundKeys 0xDEADBEEF#32 = #v[0xEF#8, 0xBE#8, 0xAD#8, 0xDE#8] ∧
    roundKeys 0x100#32 = #v[0x00#8, 0x01#8, 0x00#8, 0x00#8] := by decide
theorem test_hostKey : hostKey 0x123456789 = 0x23456789#32 ∧ hostKey 178 = 0xB2#32 ∧ hostBlock 0x155 = 0x55#8 := by
  decide

/-! ## The micro-operations, one edge each (spec/40_primitives.md, spec/95_test_vectors.md sections 2.2 to 2.4) -/

theorem test_xk : (nextOf (exec (.xk 0) (runAt .enc 0#4 0x55#8 quiet))).map State.st = some 0xE7#8 := by decide
theorem test_xk_index : (nextOf (exec (.xk 2) (runAt .enc 6#4 0x5A#8 quiet))).map State.st = some 0xA5#8 := by decide
theorem test_sub : (nextOf (exec .sub (runAt .enc 1#4 0xE7#8 quiet))).map State.st = some 0x54#8 := by decide
theorem test_sub_lanes : (nextOf (exec .sub (runAt .enc 1#4 0x0F#8 quiet))).map State.st = some 0x3C#8 := by decide
theorem test_isub : (nextOf (exec .isub (runAt .dec 1#4 0x54#8 quiet))).map State.st = some 0xE7#8 := by decide
theorem test_isub_lanes : (nextOf (exec .isub (runAt .dec 1#4 0xF0#8 quiet))).map State.st = some 0x4B#8 := by decide
theorem test_perm : (nextOf (exec .perm (runAt .enc 2#4 0x55#8 quiet))).map State.st = some 0xCC#8 := by decide
theorem test_perm_one_bit : (nextOf (exec .perm (runAt .enc 2#4 0x01#8 quiet))).map State.st = some 0x08#8 := by decide
theorem test_iperm : (nextOf (exec .iperm (runAt .dec 3#4 0xCC#8 quiet))).map State.st = some 0x55#8 := by decide
theorem test_iperm_one_bit : (nextOf (exec .iperm (runAt .dec 3#4 0x01#8 quiet))).map State.st = some 0x02#8 := by
  decide

/-! ## The commands: the accept edge and the pure functions (spec/95_test_vectors.md sections 2.5, 2.6) -/

theorem test_enc_accept :
    ((nextOf (exec (.enc 0x12345678#32 0x3C#8) (idleWith quiet))).map fun t =>
      (t.phase, t.step, t.opMode, t.st, t.rk, t.doutR, t.doneR)) =
      some (.run, 0#4, .enc, 0x3C#8, #v[0x78#8, 0x56#8, 0x34#8, 0x12#8], 0xBF#8, false) := by rfl
theorem test_enc_function :
    encryptBlock Config.sboxT 0x3C#8 0x12345678#32 = 0x5E#8 ∧
    encryptBlock Config.sboxId 0x00#8 0xDEADBEEF#32 = 0x1F#8 := by decide +kernel
theorem test_dec_accept :
    ((nextOf (exec (.dec 0xB2#32 0xBF#8) (idleWith quiet))).map fun t => (t.opMode, t.st, t.rk)) =
      some (.dec, 0xBF#8, #v[0xB2#8, 0x00#8, 0x00#8, 0x00#8]) := by decide
theorem test_dec_function :
    decryptBlock Config.sboxT 0x00#8 0xDEADBEEF#32 = 0x3D#8 ∧
    decryptBlock Config.sboxId 0xBF#8 0xB2#32 = 0x16#8 := by decide +kernel

/-! ## One edge of the controller: spec/95_test_vectors.md section 2.6, C-1 to C-10 -/

theorem test_C1_reset :
    ((nextOf (step (poweredUp resetting))).map fun t => (t.phase, t.step, t.opMode, t.st, t.rk, t.doutR, t.doneR)) =
      some (.idle, 0#4, .enc, 0x00#8, #v[0x00#8, 0x00#8, 0x00#8, 0x00#8], 0x00#8, false) := by rfl
theorem test_C2_hold :
    nextOf (step (idleWith quiet)) = some { idleWith quiet with inputs := [], edge := 1 } := by rfl
theorem test_C3_accept :
    ((nextOf (step (idleWith asking))).map fun t => (t.phase, t.step, t.opMode, t.st, t.rk, t.doutR, t.doneR)) =
      some (.run, 0#4, .dec, 0xBF#8, #v[0xB2#8, 0x00#8, 0x00#8, 0x00#8], 0xBF#8, false) := by rfl
theorem test_C4_busy_start_ignored :
    ((nextOf (step (runAt .enc 5#4 0x7F#8 asking))).map fun t => (t.phase, t.step, t.opMode, t.st)) =
      some (.run, 6#4, .enc, 0xDF#8) := by decide
theorem test_C5_completion :
    ((nextOf (step (runAt .enc 11#4 0x0D#8 quiet))).map fun t => (t.phase, t.step, t.st, t.doutR, t.doneR)) =
      some (.idle, 0#4, 0xBF#8, 0xBF#8, true) := by decide
theorem test_C6_completion_ignores_start :
    ((nextOf (step (runAt .enc 11#4 0x0D#8 asking))).map fun t => (t.phase, t.opMode, t.doutR, t.doneR)) =
      some (.idle, .enc, 0xBF#8, true) := by decide
theorem test_C8_reset_beats_start :
    ((nextOf (step (runAt .enc 4#4 0x9A#8 resetting))).map fun t => (t.phase, t.st, t.doutR, t.doneR)) =
      some (.idle, 0x00#8, 0x00#8, false) := by decide
theorem test_C9_accept_after_reset :
    ((nextOf (drive asking State.reset)).map fun t => (t.phase, t.step)) = some (.run, 0#4) := by decide
theorem test_C10_key_may_change :
    ((nextOf (step (runAt .enc 3#4 0xC4#8 asking))).map fun t => (t.step, t.rk)) =
      some (4#4, #v[0xB2#8, 0x00#8, 0xFF#8, 0x12#8]) := by decide

/-! ## Refusals, each by its name -/

theorem test_power_up_refused :
    refusalOf (step (poweredUp asking)) = some .powerUp ∧ (poweredUp asking).readOutputs = .error .powerUp := by decide
theorem test_step_12_refused :
    refusalOf (step (runAt .enc 12#4 0x00#8 quiet)) = some .stepOutOfRange ∧
    refusalOf (step (runAt .enc 15#4 0x00#8 quiet)) = some .stepOutOfRange := by decide
theorem test_idle_step_refused : refusalOf (step { idleWith quiet with step := 1#4 }) = some .idleStepNonzero := by
  decide
theorem test_busy_and_done_refused :
    refusalOf (step { runAt .enc 3#4 0x00#8 quiet with doneR := true }) = some .busyAndDone := by decide
theorem test_reserved_word_refused :
    refusalOf (executeWord (.uop 0b11100#5) (runAt .enc 3#4 0x00#8 quiet)) = some (.reservedMicroOp 0b11100#5) := by
  decide

/-! ## Host programs (spec/30_encoding.md R80, R81) -/

theorem test_script_samples :
    Stmt.samples resetting .reset = [{ resetting with start := false }] ∧
    Stmt.samples quiet (.dec 0xBF#8 0xB2#32) = [asking] ∧ (Stmt.samples asking (.nop 12)).length = 12 ∧
    Stmt.samples quiet .read = [] := by decide
theorem test_script_read :
    (match runScript quiet [.reset, .read] (poweredUp quiet) with
      | .next (_, os) => os
      | .fault _ => []
      | .refused _ => []) = [⟨0x00#8, false, false⟩] := by decide

/-! ## Witnesses: concrete states and operands that meet the hypotheses of each statement -/

theorem witness_ReservedMicroOpWordsRefused :
    (decode (.uop 0b10100#5)).isOk = false ∧ (decode (.uop 0b11111#5)).isOk = false ∧
    (decode (.uop 0b00101#5)).isOk = false ∧ (decode (.uop 0b10011#5)).isOk = false := by decide

theorem witness_StepRunsTheFetchedInstruction :
    ((idleWith asking).ports.rst = false ∧ fetch (idleWith asking) = .ok (some (.cmd 0x1000000B2BF#41)) ∧
      decode (.cmd 0x1000000B2BF#41) = .ok (.dec 0xB2#32 0xBF#8)) ∧
    ((runAt .dec 11#4 0#8 asking).ports.rst = false ∧
      fetch (runAt .dec 11#4 0#8 asking) = .ok (some (.uop 0b00000#5)) ∧
      decode (.uop 0b00000#5) = .ok (.xk 0)) := by decide

theorem witness_FetchTakesPortsInIdleAndRomInRun :
    ((idleWith asking).Legal ∧ (idleWith asking).phase = .idle ∧ (idleWith asking).ports.start = true) ∧
    ((idleWith quiet).Legal ∧ (idleWith quiet).phase = .idle ∧ (idleWith quiet).ports.start = false) ∧
    ((runAt .dec 0#4 0#8 quiet).Legal ∧ (runAt .dec 0#4 0#8 quiet).phase = .run) ∧
    ((runAt .dec 11#4 0#8 quiet).Legal ∧ (runAt .dec 11#4 0#8 quiet).phase = .run) := by decide

theorem witness_ResetEdgeLoadsResetValues :
    (poweredUp resetting).ports.rst = true ∧ (runAt .enc 11#4 0#8 resetting).ports.rst = true := by decide

theorem witness_OneResetEdgeIsEnough :
    resetting.rst = true ∧ (∀ r ∈ [resetting, resetting], r.rst = true) ∧ asking.rst = false ∧
    asking.start = true := by decide

theorem witness_ResetAbandonsTheCommand :
    (runAt .enc 11#4 0#8 quiet).phase = .run ∧ resetting.rst = true ∧
    (∀ q ∈ [quiet, quiet, { resetting with start := false }], q.start = false) := by decide

theorem witness_PowerUpRefusesAllButReset :
    ((poweredUp asking).resetSeen = false ∧ (poweredUp asking).ports.rst = false) ∧
    ((poweredUp resetting).resetSeen = false ∧ (poweredUp resetting).ports.rst = true) := by decide

theorem witness_IdleHoldChangesNoRegister :
    (idleWith quiet).Legal ∧ (idleWith quiet).ports.rst = false ∧ (idleWith quiet).phase = .idle ∧
    (idleWith quiet).ports.start = false := by decide

theorem witness_CommandsAreAcceptedInIdle : (idleWith quiet).Legal ∧ (idleWith quiet).phase = .idle := by decide

theorem witness_AcceptEdgeTakesThePorts :
    (idleWith asking).Legal ∧ (idleWith asking).ports.rst = false ∧ (idleWith asking).phase = .idle ∧
    (idleWith asking).ports.start = true := by decide

theorem witness_RoundKeysAreTheKeyBytes : State.reset.Legal ∧ State.reset.phase = .idle := by decide

theorem witness_HostKeyBytes : (0 : Nat) < 2 ^ 32 ∧ 4294967295 < 2 ^ 32 := by decide

theorem witness_InputsMatterOnlyAtAcceptEdges :
    ((runAt .enc 4#4 0#8 quiet).phase = .run ∧ quiet.rst = asking.rst ∧ quiet.start ≠ asking.start) ∧
    (resetting.rst = ({ quiet with rst := true } : Ports).rst ∧ resetting.rst = true) ∧
    (quiet.rst = ({ asking with start := false } : Ports).rst ∧ quiet.start = false ∧
      ({ asking with start := false } : Ports).start = false) := by decide

theorem witness_StartWhileBusyIsIgnored :
    (runAt .enc 11#4 0#8 asking).Legal ∧ (runAt .enc 11#4 0#8 asking).phase = .run ∧
    (runAt .enc 11#4 0#8 asking).step = 11#4 ∧ asking.rst = false ∧ asking.start = true ∧ quiet.rst = false ∧
    (runAt .enc 0#4 0#8 asking).Legal ∧ (runAt .enc 0#4 0#8 asking).phase = .run := by decide

theorem witness_XkXorsTheRoundKey :
    (runAt .enc 0#4 0x55#8 quiet).Legal ∧ (runAt .enc 0#4 0x55#8 quiet).phase = .run ∧
    (runAt .enc 3#4 0x55#8 quiet).rk.get (BitVec.toFin 1#2) = 0x00#8 ∧
    (runAt .enc 6#4 0x55#8 quiet).rk.get (BitVec.toFin 2#2) = 0xFF#8 ∧
    (runAt .enc 11#4 0x55#8 quiet).Legal := by decide

theorem witness_SubLooksUpBothNibbles :
    (runAt .enc 10#4 0xE7#8 quiet).Legal ∧ (runAt .enc 10#4 0xE7#8 quiet).phase = .run := by decide

theorem witness_IsubLooksUpBothNibblesInTheInverse :
    (runAt .dec 10#4 0x54#8 quiet).Legal ∧ (runAt .dec 10#4 0x54#8 quiet).phase = .run := by decide

theorem witness_PermRoutesTheBits :
    (runAt .enc 8#4 0x55#8 quiet).Legal ∧ (runAt .enc 8#4 0x55#8 quiet).phase = .run := by decide

theorem witness_IpermRoutesTheBitsBack :
    (runAt .dec 9#4 0xCC#8 quiet).Legal ∧ (runAt .dec 9#4 0xCC#8 quiet).phase = .run := by decide

theorem witness_MicroOpInIdleIsRefused :
    Instr.isMicroOp .perm = true ∧ (idleWith quiet).Legal ∧ (idleWith quiet).phase = .idle := by decide

theorem witness_MicroOpFrame :
    (∃ t, Instr.isMicroOp .sub = true ∧ exec .sub (runAt .enc 10#4 0xE7#8 quiet) = .next t ∧
      (runAt .enc 10#4 0xE7#8 quiet).step ≠ 11#4) ∧
    (∃ t, Instr.isMicroOp (.xk 0) = true ∧ exec (.xk 0) (runAt .enc 11#4 0xE7#8 quiet) = .next t) :=
  ⟨⟨_, rfl, rfl, by decide⟩, ⟨_, rfl, rfl⟩⟩

theorem witness_CommandFrame :
    (idleWith quiet).phase = .idle ∧ (∃ t, exec (.enc 0xB2#32 0x55#8) (idleWith quiet) = .next t) ∧
    (∃ t, exec (.dec 0xB2#32 0xBF#8) (idleWith quiet) = .next t) := ⟨rfl, ⟨_, rfl⟩, ⟨_, rfl⟩⟩

/-- A reset edge, a completion edge, and an edge that is neither, each with its next state. -/
theorem witness_DoutIsWrittenByCompletionAndReset :
    (∃ t, step (runAt .enc 11#4 0x0D#8 resetting) = .next t ∧ (runAt .enc 11#4 0x0D#8 resetting).ports.rst = true) ∧
    (∃ t, step (runAt .enc 11#4 0x0D#8 quiet) = .next t ∧ (runAt .enc 11#4 0x0D#8 quiet).ports.rst = false ∧
      (runAt .enc 11#4 0x0D#8 quiet).phase = .run ∧ (runAt .enc 11#4 0x0D#8 quiet).step = 11#4) ∧
    (∃ t, step (runAt .enc 10#4 0x0D#8 quiet) = .next t ∧ (runAt .enc 10#4 0x0D#8 quiet).ports.rst = false ∧
      ¬ ((runAt .enc 10#4 0x0D#8 quiet).phase = .run ∧ (runAt .enc 10#4 0x0D#8 quiet).step = 11#4)) :=
  ⟨⟨_, rfl, rfl⟩, ⟨_, rfl, rfl, rfl, rfl⟩, ⟨_, rfl, rfl, by decide⟩⟩

/-- As for dout, and an accept edge. -/
theorem witness_DoneIsSetByCompletionOnly :
    (∃ t, step (idleWith resetting) = .next t ∧ (idleWith resetting).ports.rst = true) ∧
    (∃ t, step (idleWith asking) = .next t ∧ (idleWith asking).ports.rst = false ∧ (idleWith asking).phase = .idle ∧
      (idleWith asking).ports.start = true) ∧
    (∃ t, step (runAt .dec 11#4 0#8 asking) = .next t ∧ (runAt .dec 11#4 0#8 asking).ports.rst = false ∧
      (runAt .dec 11#4 0#8 asking).phase = .run ∧ (runAt .dec 11#4 0#8 asking).step = 11#4) ∧
    (∃ t, step (idleWith quiet) = .next t ∧ (idleWith quiet).ports.rst = false ∧
      ¬ ((idleWith quiet).phase = .idle ∧ (idleWith quiet).ports.start = true) ∧
      ¬ ((idleWith quiet).phase = .run ∧ (idleWith quiet).step = 11#4)) :=
  ⟨⟨_, rfl, rfl⟩, ⟨_, rfl, rfl, rfl, rfl⟩, ⟨_, rfl, rfl, rfl, rfl⟩, ⟨_, rfl, rfl, by decide, by decide⟩⟩

theorem witness_RoundKeysAreWrittenByAcceptAndReset :
    (∃ t, step (idleWith resetting) = .next t ∧ (idleWith resetting).ports.rst = true) ∧
    (∃ t, step (idleWith asking) = .next t ∧ (idleWith asking).ports.rst = false ∧ (idleWith asking).phase = .idle ∧
      (idleWith asking).ports.start = true) ∧
    (∃ t, step (runAt .dec 0#4 0#8 asking) = .next t ∧ (runAt .dec 0#4 0#8 asking).ports.rst = false ∧
      ¬ ((runAt .dec 0#4 0#8 asking).phase = .idle ∧ (runAt .dec 0#4 0#8 asking).ports.start = true)) :=
  ⟨⟨_, rfl, rfl⟩, ⟨_, rfl, rfl, rfl, rfl⟩, ⟨_, rfl, rfl, by decide⟩⟩

theorem witness_RoundKeysStayUntilTheNextAccept :
    (idleWith asking).Legal ∧ (idleWith asking).phase = .idle ∧ asking.rst = false ∧ asking.start = true ∧
    (∀ i q, (List.replicate 12 asking ++ [quiet])[i]? = some q → q.rst = false ∧ (12 ≤ i → q.start = false)) := by
  refine ⟨by decide, by decide, by decide, by decide, ?_⟩
  intro i q h
  have hi : i < 13 := by
    by_contra hc
    rw [List.getElem?_eq_none (by simp; omega)] at h
    cases h
  interval_cases i <;> simp at h <;> subst h <;> decide

theorem witness_TablesAreNeverWritten :
    (∃ t, step (idleWith asking) = .next t) ∧ (∃ t, exec .isub (runAt .dec 1#4 0#8 quiet) = .next t) :=
  ⟨⟨_, rfl⟩, ⟨_, rfl⟩⟩

theorem witness_StepAdvancesByOneInRun :
    ((runAt .enc 10#4 0#8 asking).Legal ∧ (runAt .enc 10#4 0#8 asking).phase = .run ∧
      (runAt .enc 10#4 0#8 asking).ports.rst = false ∧ (runAt .enc 10#4 0#8 asking).step.toNat < 11) ∧
    ((runAt .enc 11#4 0#8 asking).Legal ∧ (runAt .enc 11#4 0#8 asking).step.toNat = 11) := by decide

theorem witness_OutputsComeFromRegisters : (idleWith quiet).resetSeen = true := by decide

theorem witness_EveryStepLandsInALegalState :
    (∃ t, step (poweredUp resetting) = .next t) ∧ (∃ t, step (runAt .dec 11#4 0#8 quiet) = .next t) :=
  ⟨⟨_, rfl⟩, ⟨_, rfl⟩⟩

theorem witness_LegalStatesNeverStop : (idleWith asking).Legal ∧ (runAt .dec 11#4 0#8 asking).Legal := by decide

theorem witness_RefusedStatesAreNamed :
    ((runAt .enc 12#4 0#8 quiet).ports.rst = false ∧ (runAt .enc 12#4 0#8 quiet).resetSeen = true ∧
      (runAt .enc 12#4 0#8 quiet).phase = .run ∧ 12 ≤ (runAt .enc 12#4 0#8 quiet).step.toNat) ∧
    (({ idleWith quiet with step := 15#4 } : State).ports.rst = false ∧
      ({ idleWith quiet with step := 15#4 } : State).resetSeen = true ∧
      ({ idleWith quiet with step := 15#4 } : State).phase = .idle ∧
      ({ idleWith quiet with step := 15#4 } : State).step ≠ 0#4) ∧
    (({ runAt .enc 11#4 0#8 quiet with doneR := true } : State).ports.rst = false ∧
      ({ runAt .enc 11#4 0#8 quiet with doneR := true } : State).resetSeen = true ∧
      ({ runAt .enc 11#4 0#8 quiet with doneR := true } : State).phase = .run ∧
      ({ runAt .enc 11#4 0#8 quiet with doneR := true } : State).step.toNat ≤ 11) := by decide

theorem witness_NoRunTimeException :
    (idleWith quiet).Legal ∧ Instr.isMicroOp .iperm = true ∧ (runAt .dec 3#4 0#8 quiet).Legal ∧
    (runAt .dec 3#4 0#8 quiet).phase = .run := by decide

theorem witness_CommandCompletesAfterTwelveEdges :
    let s : State := { idleWith quiet with inputs := asking :: (List.replicate 12 asking ++ [quiet]) }
    s.Legal ∧ s.phase = .idle ∧ s.inputs = asking :: (List.replicate 12 asking ++ [quiet]) ∧ asking.rst = false ∧
    asking.start = true ∧ (List.replicate 12 asking).length = 12 ∧ (∀ q ∈ List.replicate 12 asking, q.rst = false) ∧
    11 < 12 ∧
    (let r : State := { s with inputs := asking :: (List.replicate 12 asking ++ [asking]) }
     r.inputs = asking :: (List.replicate 12 asking ++ asking :: [])) := by decide

theorem witness_IntermediateStatesFollowTheSequence :
    (idleWith quiet).Legal ∧ (idleWith quiet).phase = .idle ∧ asking.rst = false ∧ asking.start = true ∧
    (List.replicate 12 quiet).length ≤ 12 ∧ (∀ q ∈ List.replicate 12 quiet, q.rst = false) := by decide

theorem witness_EncryptThenDecryptAtThePorts : State.reset.Legal ∧ State.reset.phase = .idle := by decide

theorem witness_ResultDependsOnTheOperandsAlone :
    let s' : State := { idleWith quiet with st := 0x3D#8, rk := #v[1#8, 2#8, 3#8, 4#8], doneR := false, edge := 7 }
    (idleWith quiet).Legal ∧ s'.Legal ∧ (idleWith quiet).phase = .idle ∧ s'.phase = .idle ∧
    (idleWith quiet).cfg = s'.cfg ∧ asking.rst = false ∧ asking.start = true ∧
    (List.replicate 12 quiet).length = 12 ∧ (List.replicate 12 asking).length = 12 ∧
    (∀ q ∈ List.replicate 12 quiet, q.rst = false) ∧ (∀ q ∈ List.replicate 12 asking, q.rst = false) := by decide

theorem witness_XkLaws :
    (#v[0xE7#8, 0#8, 0#8, 0#8] : Vector Block 4).get (BitVec.toFin 0#2) =
      (#v[0x55#8, 0#8, 0#8, 0xB2#8] : Vector Block 4).get (BitVec.toFin 0#2) ^^^
        (#v[0x55#8, 0#8, 0#8, 0xB2#8] : Vector Block 4).get (BitVec.toFin 3#2) := by decide

theorem witness_SubstitutionLanesAreIndependent :
    highNibble 0x5A#8 = highNibble 0x50#8 ∧ lowNibble 0x5A#8 = lowNibble 0xFA#8 ∧
    highNibble 0x5A#8 = lowNibble 0xF5#8 := by decide

theorem witness_DecryptStepsUndoEncryptSteps :
    ((microOps .dec)[0]? = some (.xk 0) ∧ (microOps .enc)[11 - 0]? = some (.xk 0)) ∧
    ((microOps .dec)[11]? = some (.xk 0) ∧ (microOps .enc)[11 - 11]? = some (.xk 0)) ∧
    ((microOps .dec)[3]? = some .iperm ∧ (microOps .enc)[11 - 3]? = some .perm) := by decide

/-- A table that passes and one that fails the check; test_elaborate_ok and the refusals above give the results. -/
theorem witness_ElaborationChecksTheSbox :
    Function.Bijective Config.sboxT.sbox.get ∧
    ¬ Function.Bijective (#v[3, 10, 1, 8, 15, 6, 13, 4, 11, 2, 9, 0, 7, 14, 5, 5] : Vector (Fin 16) 16).get := by
  decide

theorem witness_ElaborationChecksThePermutation :
    Function.Bijective permTable.get ∧
    ¬ Function.Bijective (#v[1, 5, 2, 0, 3, 7, 4, 4] : Vector (Fin 8) 8).get := by decide

end Sys2Proof.Tests
end

section
/-! PROOFS. The state of the core (spec/10_state.md): which edges write which register, what the inputs can reach, and
what the outputs show. -/

namespace Sys2Proof.Machine

/-! ## Lemmas -/

/-- Every instruction is one of the two commands or a micro-operation. -/
theorem command_or_microOp (i : Instr) :
    (∃ key din, i = .enc key din) ∨ (∃ key din, i = .dec key din) ∨ ∃ u : MicroOp, i = u.toInstr := by
  cases i with
  | enc key din => exact .inl ⟨key, din, rfl⟩
  | dec key din => exact .inr (.inl ⟨key, din, rfl⟩)
  | xk kidx => exact .inr (.inr ⟨.xk kidx, rfl⟩)
  | sub => exact .inr (.inr ⟨.sub, rfl⟩)
  | isub => exact .inr (.inr ⟨.isub, rfl⟩)
  | perm => exact .inr (.inr ⟨.perm, rfl⟩)
  | iperm => exact .inr (.inr ⟨.iperm, rfl⟩)

/-- Everything an instruction that answers a next state can have done: in IDLE a command is accepted (R132); in RUN a
micro-operation writes back, the instruction itself or, under an ignored command, the one at `step` (R133, R135). -/
theorem exec_next_cases {i : Instr} {s t : State} (h : exec i s = .next t) :
    s.Legal ∧
    ((s.phase = .idle ∧ ∃ key din,
        (i = .enc key din ∧ t = s.accept .enc key din) ∨ (i = .dec key din ∧ t = s.accept .dec key din)) ∨
      (s.phase = .run ∧ ∃ u : MicroOp,
        (i = u.toInstr ∨ (i.isMicroOp = false ∧ (microOps s.opMode)[s.step.toNat]? = some u)) ∧
        t = s.writeBack (u.apply s.cfg s.rk s.st))) := by
  obtain ⟨key, din, rfl⟩ | ⟨key, din, rfl⟩ | ⟨u, rfl⟩ := command_or_microOp i
  · obtain ⟨hl, ⟨hp, ht⟩ | ⟨hp, u, hu, ht⟩⟩ := commandEdge_next h
    · exact ⟨hl, .inl ⟨hp, key, din, .inl ⟨rfl, ht⟩⟩⟩
    · exact ⟨hl, .inr ⟨hp, u, .inr ⟨rfl, hu⟩, ht⟩⟩
  · obtain ⟨hl, ⟨hp, ht⟩ | ⟨hp, u, hu, ht⟩⟩ := commandEdge_next h
    · exact ⟨hl, .inl ⟨hp, key, din, .inr ⟨rfl, ht⟩⟩⟩
    · exact ⟨hl, .inr ⟨hp, u, .inr ⟨rfl, hu⟩, ht⟩⟩
  · rw [exec_toInstr] at h
    obtain ⟨hl, hp, ht⟩ := microOpEdge_eq_next_iff.mp h
    exact ⟨hl, .inr ⟨hp, u, .inl rfl, ht⟩⟩

/-- A driven edge that is no reset edge is refused in a state that the guard refuses. -/
theorem drive_refused {p : Ports} {s : State} {r : Refusal} (hr : p.rst = false) (hg : s.guard = some r) :
    drive p s = .refused r :=
  step_refused (s := { s with inputs := p :: s.inputs }) hr hg

/-- Two port samples with one value of `rst` drive the same edge, unless the edge is an accept edge for one of them
(R22). -/
theorem drive_eq_drive_of_no_accept {p q : Ports} {s : State} (hrst : p.rst = q.rst)
    (h : s.phase = .run ∨ p.rst = true ∨ (p.start = false ∧ q.start = false)) : drive p s = drive q s := by
  cases hp : p.rst with
  | true => rw [drive_reset hp, drive_reset (hrst.symm.trans hp)]
  | false =>
    have hq : q.rst = false := hrst.symm.trans hp
    cases hg : s.guard with
    | some r => rw [drive_refused hp hg, drive_refused hq hg]
    | none =>
      have hl : s.Legal := guard_eq_none_iff.mp hg
      cases hph : s.phase with
      | idle =>
        obtain ⟨hps, hqs⟩ : p.start = false ∧ q.start = false := by simpa [hph, hp] using h
        rw [drive_hold hl hph hp hps, drive_hold hl hph hq hqs]
      | run =>
        obtain ⟨u, hu, ep⟩ := drive_run hl hph hp
        obtain ⟨v, hv, eq⟩ := drive_run hl hph hq
        obtain rfl : u = v := Option.some.inj (hu.symm.trans hv)
        rw [ep, eq]

/-- Each round key is zero after a reset edge (R40). -/
theorem get_resetRegisters_rk (s : State) (i : Fin 4) : s.resetRegisters.rk.get i = 0x00#8 := by
  have hzero : ∀ i : Fin 4, (#v[0x00#8, 0x00#8, 0x00#8, 0x00#8] : Vector Block 4).get i = 0x00#8 := by decide
  exact hzero i

/-- After a reset edge the outputs are read, from the registers alone (R21). -/
theorem readOutputs_of_resetSeen {s : State} (h : s.resetSeen = true) :
    s.readOutputs = .ok ⟨s.doutR, decide (s.phase = .run), s.doneR⟩ :=
  if_pos h

/-! ## The obligations -/

/-- Settles O18: an edge driven with the samples waiting behind it is a step with one more sample in front. -/
theorem inputsMatterOnlyAtAcceptEdges : Obligations.InputsMatterOnlyAtAcceptEdges := by
  intro s p q ps hrst h
  exact drive_eq_drive_of_no_accept (s := { s with inputs := ps }) hrst h

/-- Settles O28, over the four kinds of edge: only the write-back at step 11 and the reset write `dout_r`. -/
theorem doutIsWrittenByCompletionAndReset : Obligations.DoutIsWrittenByCompletionAndReset := by
  intro s t h
  obtain ⟨hr, rfl⟩ | ⟨hr, -, hp, -, rfl⟩ | ⟨hr, -, hp, -, rfl⟩ | ⟨hr, -, hp, u, -, rfl⟩ := step_next_cases h
  · simp [hr]
  · simp [hr, hp]
  · simp [hr, hp]
  · by_cases h11 : s.step = 11#4
    · simp [hr, hp, h11]
    · simp [hr, h11]

/-- Settles O29, over the four kinds of edge: the accept, the write-back at step 11 and the reset write `done_r`. -/
theorem doneIsSetByCompletionOnly : Obligations.DoneIsSetByCompletionOnly := by
  intro s t h
  obtain ⟨hr, rfl⟩ | ⟨hr, -, hp, hs, rfl⟩ | ⟨hr, -, hp, hs, rfl⟩ | ⟨hr, -, hp, u, -, rfl⟩ := step_next_cases h
  · simp [hr]
  · simp [hr, hp, hs]
  · simp [hr, hp, hs]
  · by_cases h11 : s.step = 11#4
    · simp [hr, hp, h11]
    · simp [hr, hp, h11]

/-- Settles O30, over the four kinds of edge: only the accept and the reset write the round keys. -/
theorem roundKeysAreWrittenByAcceptAndReset : Obligations.RoundKeysAreWrittenByAcceptAndReset := by
  intro s t h
  obtain ⟨hr, rfl⟩ | ⟨hr, -, hp, hs, rfl⟩ | ⟨hr, -, hp, hs, rfl⟩ | ⟨hr, -, hp, u, -, rfl⟩ := step_next_cases h
  · exact ⟨fun _ => get_resetRegisters_rk s, by simp [hr], by simp [hr]⟩
  · simp [hr, hp, hs]
  · simp [hr, hp, hs]
  · simp [hr, hp]

/-- Settles O32: no register update, of a step or of an instruction, writes the configuration. -/
theorem tablesAreNeverWritten : Obligations.TablesAreNeverWritten := by
  constructor
  · intro s t h
    obtain ⟨-, rfl⟩ | ⟨-, -, -, -, rfl⟩ | ⟨-, -, -, -, rfl⟩ | ⟨-, -, -, u, -, rfl⟩ := step_next_cases h
    · rw [State.tick_cfg, State.resetRegisters_cfg]
    · rw [State.tick_cfg]
    · rw [State.tick_cfg, State.accept_cfg]
    · rw [State.tick_cfg, State.writeBack_cfg]
  · intro i s t h
    obtain ⟨-, ⟨-, key, din, ⟨-, rfl⟩ | ⟨-, rfl⟩⟩ | ⟨-, u, -, rfl⟩⟩ := exec_next_cases h
    · rw [State.accept_cfg]
    · rw [State.accept_cfg]
    · rw [State.writeBack_cfg]

/-- Settles O34: reading the outputs looks at no waiting port sample. -/
theorem outputsComeFromRegisters : Obligations.OutputsComeFromRegisters :=
  fun s ps h => readOutputs_of_resetSeen (s := { s with inputs := ps }) h

end Sys2Proof.Machine
end

section
/-! PROOFS. The operands of a command and what its result depends on (spec/20_memory.md R52, R61): the round keys are
the key's bytes, and the 12 edges of a command compute a function of its mode, `din` and `key` alone. -/

namespace Sys2Proof.Machine

/-! ## Lemmas -/

/-- Round key i as a number: byte i of the key (R52). -/
theorem toNat_get_roundKeys (key : Key) (i : Fin 4) :
    ((roundKeys key).get i).toNat = key.toNat / 2 ^ (8 * i.val) % 256 := by
  rw [get_roundKeys, BitVec.extractLsb'_toNat, Nat.shiftRight_eq_div_pow]

/-- One more micro-operation of the sequence takes the trace one place on (R145). -/
theorem traceAt_succ {c : Config} {m : Mode} {key : Key} {din : Block} {j : Nat} {u : MicroOp}
    (hu : (microOps m)[j]? = some u) :
    traceAt c m key din (j + 1) = u.apply c (roundKeys key) (traceAt c m key din j) := by
  simp [traceAt, List.take_add_one, hu, List.foldl_append]

/-- The core in RUN, j micro-operations into the command m of `key` and `din`, under the configuration c. Nothing here
speaks of `dout_r`, of earlier commands or of the ports. -/
structure State.Running (c : Config) (m : Mode) (key : Key) (din : Block) (j : Nat) (s : State) : Prop where
  legal  : s.Legal
  phase  : s.phase = .run
  step   : s.step.toNat = j
  cfg    : s.cfg = c
  opMode : s.opMode = m
  rk     : s.rk = roundKeys key
  st     : s.st = traceAt c m key din j

/-- The core in IDLE, showing v as the result of a completed command (R134). -/
structure State.Shows (v : Block) (s : State) : Prop where
  resetSeen : s.resetSeen = true
  phase     : s.phase = .idle
  doutR     : s.doutR = v
  doneR     : s.doneR = true

section
variable {c : Config} {m : Mode} {key : Key} {din : Block} {j : Nat} {s : State}

/-- A running command is at one of the steps 0 to 11 (R39). -/
theorem State.Running.le_eleven (h : s.Running c m key din j) : j ≤ 11 := by
  obtain ⟨-, -, hstep, -⟩ := h.legal
  exact h.step ▸ hstep h.phase

/-- The accept edge starts the command at its first micro-operation (R132). -/
theorem State.Running.accept (h : s.Legal) : (s.accept m key din).Running s.cfg m key din 0 :=
  ⟨legal_accept h, rfl, rfl, rfl, rfl, rfl, rfl⟩

/-- Before step 11 the write-back of the micro-operation at `step` takes the command one place on (R133). -/
theorem State.Running.writeBack {u : MicroOp} (h : s.Running c m key din j) (hj : j ≠ 11)
    (hu : (microOps m)[j]? = some u) :
    (s.writeBack (u.apply c (roundKeys key) (traceAt c m key din j))).Running c m key din (j + 1) := by
  have hle := h.le_eleven
  have hs : s.step ≠ 11#4 := fun hs => hj (by rw [← h.step, hs]; rfl)
  have hstep : (s.step + 1#4).toNat = j + 1 := by
    rw [BitVec.toNat_add, h.step, BitVec.toNat_ofNat]
    omega
  constructor
  case legal => exact legal_writeBack h.legal h.phase
  case st => rw [State.writeBack_st, traceAt_succ hu]
  all_goals simp [hs, hstep, h.phase, h.cfg, h.opMode, h.rk]

/-- At step 11 the write-back completes the command: the outputs show all 12 micro-operations' result (R134). -/
theorem State.Running.writeBack_last {u : MicroOp} (h : s.Running c m key din 11)
    (hu : (microOps m)[11]? = some u) :
    (s.writeBack (u.apply c (roundKeys key) (traceAt c m key din 11))).Shows (traceAt c m key din 12) := by
  have hs : s.step = 11#4 := BitVec.eq_of_toNat_eq h.step
  obtain ⟨hseen, -⟩ := h.legal
  constructor
  case doutR => rw [State.writeBack_doutR, if_pos hs, traceAt_succ hu]
  all_goals simp [hs, hseen]

/-- A driven edge writes back the micro-operation at `step`, whatever the ports carry beside `rst = 0` (R135). -/
theorem State.Running.drive {p : Ports} (h : s.Running c m key din j) (hr : p.rst = false) :
    ∃ u, (microOps m)[j]? = some u ∧
      drive p s = .next (s.writeBack (u.apply c (roundKeys key) (traceAt c m key din j))).skipEdge := by
  obtain ⟨u, hu, e⟩ := drive_run h.legal h.phase hr
  rw [h.opMode, h.step] at hu
  rw [h.cfg, h.rk, h.st] at e
  exact ⟨u, hu, e⟩

/-! Both predicates speak of registers, and the number of the coming edge is none. -/

theorem State.Running.skipEdge (h : s.Running c m key din j) : s.skipEdge.Running c m key din j :=
  ⟨h.legal, h.phase, h.step, h.cfg, h.opMode, h.rk, h.st⟩

theorem State.Shows.skipEdge {v : Block} (h : s.Shows v) : s.skipEdge.Shows v :=
  ⟨h.resetSeen, h.phase, h.doutR, h.doneR⟩

end

/-- The edges that are left of a running command complete it, if none is a reset edge. -/
theorem driveAll_running {c : Config} {m : Mode} {key : Key} {din : Block} {j : Nat} {s : State} {qs : List Ports}
    (h : s.Running c m key din j) (hlen : j + qs.length = 12) (hr : ∀ q ∈ qs, q.rst = false) :
    ∃ t, driveAll qs s = .next t ∧ t.Shows (traceAt c m key din 12) := by
  induction qs generalizing j s with
  | nil =>
    have hle := h.le_eleven
    rw [List.length_nil] at hlen
    omega
  | cons q qs ih =>
    obtain ⟨hq, hqs⟩ := List.forall_mem_cons.mp hr
    rw [List.length_cons] at hlen
    obtain ⟨u, hu, e⟩ := h.drive hq
    rw [driveAll_cons e]
    by_cases hj : j = 11
    · subst hj
      obtain rfl : qs = [] := List.length_eq_zero_iff.mp (by omega)
      exact ⟨_, driveAll_nil _, (h.writeBack_last hu).skipEdge⟩
    · exact ih (h.writeBack hj hu).skipEdge (by omega) hqs

/-- A command accepted in a legal idle state and followed by 12 edges without a reset shows the result of its sequence
on its own operands (R144, R145). -/
theorem driveAll_command {s : State} {p : Ports} {qs : List Ports} (hl : s.Legal) (hp : s.phase = .idle)
    (hr : p.rst = false) (hs : p.start = true) (hlen : qs.length = 12) (hq : ∀ q ∈ qs, q.rst = false) :
    ∃ t, driveAll (p :: qs) s = .next t ∧ t.Shows (traceAt s.cfg p.mode p.key p.din 12) := by
  rw [driveAll_cons (drive_accept hl hp hr hs)]
  exact driveAll_running (State.Running.accept hl).skipEdge (by omega) hq

/-- The three outputs after a completed command. -/
theorem State.Shows.readOutputs {v : Block} {s : State} (h : s.Shows v) : s.readOutputs = .ok ⟨v, false, true⟩ := by
  simp [readOutputs_of_resetSeen h.resetSeen, h.phase, h.doutR, h.doneR]

/-! ## The obligations -/

/-- Settles O16: a command is accepted in IDLE, and the accept edge loads the round keys from the key's bytes. -/
theorem roundKeysAreTheKeyBytes : Obligations.RoundKeysAreTheKeyBytes := by
  intro s key din i hl hp
  exact ⟨⟨s.accept .enc key din, commandEdge_idle hl hp, toNat_get_roundKeys key i⟩,
    ⟨s.accept .dec key din, commandEdge_idle hl hp, toNat_get_roundKeys key i⟩⟩

/-- Settles O45: each run shows the result of the sequence on its own operands, and these are the same. -/
theorem resultDependsOnTheOperandsAlone : Obligations.ResultDependsOnTheOperandsAlone := by
  intro s s' p p' qs qs' hl hl' hp hp' hcfg hr hr' hs hs' hmode hdin hkey hlen hlen' hq hq'
  obtain ⟨t, e, h⟩ := driveAll_command hl hp hr hs hlen hq
  obtain ⟨t', e', h'⟩ := driveAll_command hl' hp' hr' hs' hlen' hq'
  rw [← hcfg, ← hmode, ← hkey, ← hdin] at h'
  exact ⟨t, t', e, e', h.readOutputs.trans h'.readOutputs.symm, h.doneR⟩

end Sys2Proof.Machine
end

section
/-! PROOFS. The words of the two formats (spec/30_encoding.md R70 to R77): which micro-operation words are reserved and
what becomes of one, the fields of the command word, and the contents of the sequencer ROM. -/

namespace Sys2Proof.Machine

/-! ## Lemmas -/

/-- Reserved by class alone, or by class and index (R77). -/
theorem reserved_eq_true_iff (w : UopWord) :
    w.reserved = true ↔
      (w.cls ∈ [0b101#3, 0b110#3, 0b111#3] ∨
        (w.cls ∈ [0b001#3, 0b010#3, 0b011#3, 0b100#3] ∧ w.kidx ≠ 0b00#2)) := by
  have hclasses : ∀ c : BitVec 3, c ≠ 0b000#3 ↔
      (c ∈ [0b101#3, 0b110#3, 0b111#3] ∨ c ∈ [0b001#3, 0b010#3, 0b011#3, 0b100#3]) := by decide
  have hreserved : w.reserved = true ↔
      (w.cls ∈ [0b101#3, 0b110#3, 0b111#3] ∨ (w.cls ≠ 0b000#3 ∧ w.kidx ≠ 0b00#2)) := by
    simp [UopWord.reserved, or_assoc]
  rw [hreserved, hclasses]
  tauto

/-- The decoder has an instruction for a micro-operation word exactly when the word is not reserved. -/
theorem isOk_decode_uop (w : UopWord) : (decode (.uop w)).isOk = !w.reserved := decodeUop_isOk w

/-- A word the decoder refuses is the word its error names. -/
theorem word_of_decodeUop_eq_error {w : UopWord} {r : ReservedWord} (h : decodeUop w = .error r) : r.word = w := by
  unfold decodeUop at h
  split_ifs at h
  · cases h; rfl
  · cases h; rfl

/-- A reserved word is executed in no state: it is refused by name (R77). -/
theorem executeWord_reserved {w : UopWord} (s : State) (h : w.reserved = true) :
    executeWord (.uop w) s = .refused (.reservedMicroOp w) := by
  have hok : (decodeUop w).isOk = false := by rw [decodeUop_isOk, h]; rfl
  cases hd : decodeUop w with
  | ok i => rw [hd] at hok; cases hok
  | error r => simp [executeWord, decode, hd, word_of_decodeUop_eq_error hd]

/-- Both sequences of the ROM hold 12 words, none of them reserved (R76). -/
theorem wellFormedSequence_sequenceOf (m : Mode) : wellFormedSequence (sequenceOf m) = true := by
  cases m with
  | enc => decide
  | dec => decide

/-- A well-formed sequence holds no reserved word. -/
theorem reserved_of_mem_wellFormedSequence {ws : List UopWord} {w : UopWord} (h : wellFormedSequence ws = true)
    (hw : w ∈ ws) : w.reserved = false := by
  obtain ⟨-, hall⟩ := Bool.and_eq_true_iff.mp h
  simpa using List.all_eq_true.mp hall w hw

/-- The mode bit of a command word, as a field and as bit 40 (R72). -/
theorem modeField_eq_zero_iff (w : CmdWord) : w.extractLsb' 40 1 = 0b0#1 ↔ w.getLsbD 40 = false := by
  have hfield : w.extractLsb' 40 1 = BitVec.ofBool (w.getLsbD 40) := by
    ext i hi
    obtain rfl : i = 0 := by omega
    simp
  rw [hfield]
  cases w.getLsbD 40 <;> decide

/-- The decoder by bit 40 of the command word (R70). -/
theorem decodeCmd_eq_ite_bit40 (w : CmdWord) :
    decodeCmd w = if w.getLsbD 40 then .dec (w.extractLsb' 8 32) (w.extractLsb' 0 8)
      else .enc (w.extractLsb' 8 32) (w.extractLsb' 0 8) := by
  cases hbit : w.getLsbD 40 with
  | false => exact if_pos ((modeField_eq_zero_iff w).mpr hbit)
  | true => exact if_neg (by simp [modeField_eq_zero_iff, hbit])

/-- Bit 40 of the command word on the ports is their mode (R70). -/
theorem getLsbD_cmdWordOf_mode (p : Ports) : (cmdWordOf p).getLsbD 40 = true ↔ p.mode = .dec := by
  have hbit : (cmdWordOf p).getLsbD 40 = (modeBit p.mode).getLsbD 0 := getLsbD_packCmd (modeBit p.mode) p.key p.din 40
  rw [hbit]
  cases p.mode <;> decide

/-- Bits 39 to 8 of the command word on the ports are their key (R72). -/
theorem getLsbD_cmdWordOf_key (p : Ports) {i : Nat} (hi : i < 32) :
    (cmdWordOf p).getLsbD (8 + i) = p.key.getLsbD i := by
  rw [cmdWordOf, getLsbD_packCmd, if_neg (by omega), if_pos (by omega), Nat.add_sub_cancel_left]

/-- Bits 7 to 0 of the command word on the ports are their block (R72). -/
theorem getLsbD_cmdWordOf_din (p : Ports) {i : Nat} (hi : i < 8) : (cmdWordOf p).getLsbD i = p.din.getLsbD i := by
  rw [cmdWordOf, getLsbD_packCmd, if_pos hi]

/-! ## The obligations -/

/-- Settles O3: the decoder refuses exactly the reserved words, the ROM's well-formed sequences hold none, and the
refusal names the word. -/
theorem reservedMicroOpWordsRefused : Obligations.ReservedMicroOpWordsRefused := by
  refine ⟨fun w => ?_, ?_, fun m w hw => ?_, fun w s h => executeWord_reserved s ?_⟩
  · rw [isOk_decode_uop, Bool.not_eq_false']
    exact reserved_eq_true_iff w
  · simp only [isOk_decode_uop, Bool.not_not]
    decide
  · rw [isOk_decode_uop, reserved_of_mem_wellFormedSequence (wellFormedSequence_sequenceOf m) hw]
    rfl
  · rwa [isOk_decode_uop, Bool.not_eq_false'] at h

/-- Settles O4: the mode field is bit 40, and the ports' word is built from its three fields. -/
theorem commandWordFields : Obligations.CommandWordFields :=
  ⟨fun w => congrArg Except.ok (decodeCmd_eq_ite_bit40 w), fun p =>
    ⟨getLsbD_cmdWordOf_mode p, fun _ => getLsbD_cmdWordOf_key p, fun _ => getLsbD_cmdWordOf_din p⟩⟩

/-- Settles O5: the ROM's 24 words are those of R76, each decodes to the micro-operation of its row, and `step` is the
index into the selected sequence by definition. -/
theorem sequencerRomContents : Obligations.SequencerRomContents := by
  refine ⟨rfl, rfl, ?_, ?_, wellFormedSequence_sequenceOf, fun _ _ => rfl⟩
  · decide
  · decide

end Sys2Proof.Machine
end

section
/-! PROOFS. The primitives of the datapath (spec/40_primitives.md R102 to R121): what each micro-operation writes in
RUN, and that substitution, permutation and the XOR with a round key are bijections with the inverses the spec names. -/

namespace Sys2Proof.Machine

/-! ## Lemmas -/

/-! `apply(u, s, rk)`, one equation for each micro-operation (R130). -/

section
variable (c : Config) (rk : Vector Block 4) (s : Block)

@[simp] theorem apply_xk (kk : BitVec 2) : (MicroOp.xk kk).apply c rk s = s ^^^ rk.get kk.toFin := rfl
@[simp] theorem apply_sub : MicroOp.sub.apply c rk s = substitute s c.sbox := rfl
@[simp] theorem apply_isub : MicroOp.isub.apply c rk s = substitute s (invSboxTable c) := rfl
@[simp] theorem apply_perm : MicroOp.perm.apply c rk s = permute s permTable := rfl
@[simp] theorem apply_iperm : MicroOp.iperm.apply c rk s = permute s invPermTable := rfl

end

/-- The write-back the statements spell out is the model's (R130). -/
theorem written_eq_writeBack (v : Block) (s : State) : Spec.written v s = s.writeBack v := rfl

/-- In a legal state in RUN a micro-operation's result is written back, in the words of the statements. -/
theorem exec_microOp_run {s : State} (u : MicroOp) (hl : s.Legal) (hp : s.phase = .run) :
    exec u.toInstr s = .next (Spec.written (u.apply s.cfg s.rk s.st) s) := by
  rw [exec_toInstr, microOpEdge_run hl hp, written_eq_writeBack]

/-- The inverse of a bijective table is a bijective table (R25, R26). -/
theorem inverseTable_bijective {n : Nat} {t : Vector (Fin n) n} (h : Function.Bijective t.get) :
    Function.Bijective (inverseTable t).get :=
  Function.bijective_iff_has_inverse.mpr ⟨t.get, get_inverseTable h, inverseTable_get h.injective⟩

/-! Substitution. -/

/-- The high nibble of a substitution, as the table's entry (R104). -/
theorem toFin_highNibble_substitute (b : Block) (t : Vector (Fin 16) 16) :
    (highNibble (substitute b t)).toFin = t.get (highNibble b).toFin := by
  rw [highNibble_substitute, lookup]

/-- The low nibble of a substitution, as the table's entry (R104). -/
theorem toFin_lowNibble_substitute (b : Block) (t : Vector (Fin 16) 16) :
    (lowNibble (substitute b t)).toFin = t.get (lowNibble b).toFin := by
  rw [lowNibble_substitute, lookup]

/-- A table that undoes another entry by entry undoes its substitution (R111). -/
theorem substitute_substitute {t u : Vector (Fin 16) 16} (h : ∀ i, u.get (t.get i) = i) (b : Block) :
    substitute (substitute b t) u = b := by
  apply block_eq_of_nibbles
  · rw [highNibble_substitute, highNibble_substitute, lookup_lookup h]
  · rw [lowNibble_substitute, lowNibble_substitute, lookup_lookup h]

/-- A bijective table substitutes bijectively (R107, R111). -/
theorem substitute_bijective {t : Vector (Fin 16) 16} (h : Function.Bijective t.get) :
    Function.Bijective fun b => substitute b t :=
  Function.bijective_iff_has_inverse.mpr ⟨fun b => substitute b (inverseTable t),
    substitute_substitute (inverseTable_get h.injective), substitute_substitute (get_inverseTable h)⟩

/-- ISUB undoes SUB (R111). -/
theorem substitute_sbox_invSbox (c : Config) (b : Block) : substitute (substitute b c.sbox) (invSboxTable c) = b :=
  substitute_substitute (invSboxTable_get c) b

/-- SUB undoes ISUB (R111). -/
theorem substitute_invSbox_sbox (c : Config) (b : Block) : substitute (substitute b (invSboxTable c)) c.sbox = b :=
  substitute_substitute (get_invSboxTable c) b

/-! Permutation. -/

theorem permute_zero (t : Vector (Fin 8) 8) : permute 0x00#8 t = 0x00#8 := by
  have hbit : ∀ i : Fin 8, (0x00#8).getLsb i = false := by decide
  exact block_eq_of_getLsb fun i => by rw [getLsb_permute, hbit, hbit]

theorem permute_allOnes (t : Vector (Fin 8) 8) : permute 0xFF#8 t = 0xFF#8 := by
  have hbit : ∀ i : Fin 8, (0xFF#8).getLsb i = true := by decide
  exact block_eq_of_getLsb fun i => by rw [getLsb_permute, hbit, hbit]

/-- A table that undoes another from the right undoes its permutation: the bit at i comes from `t[u[i]]` (R119). -/
theorem permute_permute {t u : Vector (Fin 8) 8} (h : ∀ i, t.get (u.get i) = i) (b : Block) :
    permute (permute b t) u = b :=
  block_eq_of_getLsb fun i => by rw [getLsb_permute, getLsb_permute, h]

/-- A bijective table permutes the blocks bijectively (R115, R119). -/
theorem permute_bijective {t : Vector (Fin 8) 8} (h : Function.Bijective t.get) :
    Function.Bijective fun b => permute b t :=
  Function.bijective_iff_has_inverse.mpr ⟨fun b => permute b (inverseTable t),
    permute_permute (get_inverseTable h), permute_permute (inverseTable_get h.injective)⟩

/-- Applied k times, the permutation reads each bit at the end of k steps through the table. -/
theorem getLsb_iterate_permute (t : Vector (Fin 8) 8) (k : Nat) (b : Block) (i : Fin 8) :
    ((fun b : Block => permute b t)^[k] b).getLsb i = b.getLsb (t.get^[k] i) := by
  induction k generalizing b with
  | zero => rfl
  | succ k ih => rw [Function.iterate_succ_apply, ih, getLsb_permute, Function.iterate_succ_apply']

/-- A bijective table keeps the number of set bits (R114, R118). -/
theorem setBits_permute {t : Vector (Fin 8) 8} (h : Function.Bijective t.get) (b : Block) :
    Spec.setBits (permute b t) = Spec.setBits b := by
  have hperm : ((List.finRange 8).map t.get).Perm (List.finRange 8) :=
    Equiv.Perm.map_finRange_perm (Equiv.ofBijective t.get h)
  calc Spec.setBits (permute b t)
      = (List.finRange 8).countP ((fun i => b.getLsb i) ∘ t.get) := by
        simp only [Spec.setBits, getLsb_permute, Function.comp_def]
    _ = ((List.finRange 8).map t.get).countP fun i => b.getLsb i := List.countP_map.symm
    _ = Spec.setBits b := hperm.countP_eq _

/-- A single set bit moves to the position at which the table holds its own (R114). -/
theorem permute_single {t u : Vector (Fin 8) 8} (htu : ∀ i, t.get (u.get i) = i) (hut : ∀ i, u.get (t.get i) = i)
    (j : Fin 8) : permute (1#8 <<< j.val) t = 1#8 <<< (u.get j).val := by
  have hbit : ∀ j i : Fin 8, (1#8 <<< j.val).getLsb i = decide (i = j) := by decide
  have hmoved : ∀ i, t.get i = j ↔ i = u.get j :=
    fun i => ⟨fun e => by rw [← e, hut], fun e => by rw [e, htu]⟩
  exact block_eq_of_getLsb fun i => by rw [getLsb_permute, hbit, hbit, decide_eq_decide, hmoved]

/-- The bits of a permutation, bit 7 first (R112). -/
theorem permute_eq_ofBoolListBE (b : Block) (t : Vector (Fin 8) 8) :
    permute b t = BitVec.ofBoolListBE [b.getLsb (t.get 7), b.getLsb (t.get 6), b.getLsb (t.get 5), b.getLsb (t.get 4),
      b.getLsb (t.get 3), b.getLsb (t.get 2), b.getLsb (t.get 1), b.getLsb (t.get 0)] := by
  apply block_eq_of_getLsb
  intro i
  rw [getLsb_permute]
  refine Eq.trans ?_ (BitVec.getLsbD_ofBoolListBE (i := i.val)).symm
  fin_cases i <;> rfl

/-- `INV_PERM`, as R15 writes it out. -/
theorem invPermTable_eq : invPermTable = #v[3, 0, 2, 4, 6, 1, 7, 5] := by decide

/-- `INV_PERM[PERM[i]] = i` (R15). -/
theorem invPermTable_get (i : Fin 8) : invPermTable.get (permTable.get i) = i :=
  inverseTable_get permTable_bijective.injective i

/-- `PERM[INV_PERM[i]] = i` (R15). -/
theorem get_invPermTable (i : Fin 8) : permTable.get (invPermTable.get i) = i :=
  get_inverseTable permTable_bijective i

theorem invPermTable_bijective : Function.Bijective invPermTable.get := inverseTable_bijective permTable_bijective

/-- IPERM undoes PERM (R119). -/
theorem permute_perm_invPerm (b : Block) : permute (permute b permTable) invPermTable = b :=
  permute_permute get_invPermTable b

/-- PERM undoes IPERM (R119). -/
theorem permute_invPerm_perm (b : Block) : permute (permute b invPermTable) permTable = b :=
  permute_permute invPermTable_get b

/-! The micro-operations as bijections on the blocks (R121). -/

/-- XK is its own inverse (R103). -/
theorem apply_xk_involutive (c : Config) (rk : Vector Block 4) (kk : BitVec 2) :
    Function.Involutive fun s => (MicroOp.xk kk).apply c rk s := by
  intro s
  simp only [apply_xk]
  rw [BitVec.xor_assoc, BitVec.xor_self, BitVec.xor_zero]

/-- XK is its own inverse, and the other four go through bijective tables. -/
theorem apply_bijective (c : Config) (rk : Vector Block 4) (u : MicroOp) :
    Function.Bijective fun s => u.apply c rk s := by
  cases u with
  | xk kk => exact (apply_xk_involutive c rk kk).bijective
  | sub => exact substitute_bijective c.sboxBijective
  | isub => exact substitute_bijective (inverseTable_bijective c.sboxBijective)
  | perm => exact permute_bijective permTable_bijective
  | iperm => exact permute_bijective invPermTable_bijective

/-- A list of micro-operations, applied in order, composes bijections (R121). -/
theorem foldl_apply_bijective (c : Config) (rk : Vector Block 4) (us : List MicroOp) :
    Function.Bijective fun s => us.foldl (fun b u => u.apply c rk b) s := by
  induction us with
  | nil => exact Function.bijective_id
  | cons u us ih => exact ih.comp (apply_bijective c rk u)

/-! ## The obligations -/

/-- Settles O48: the tables undo each other entry by entry, so the substitutions do. -/
theorem subAndIsubAreInverse : Obligations.SubAndIsubAreInverse :=
  fun c b => ⟨substitute_sbox_invSbox c b, substitute_invSbox_sbox c b⟩

/-- Settles O52, by the five micro-operations and by induction on the list of them. -/
theorem microOpsAreBijections : Obligations.MicroOpsAreBijections :=
  fun c rk => ⟨apply_bijective c rk, foldl_apply_bijective c rk⟩

/-- Settles O20: XK writes back the XOR; 0x00 is neutral for it and 0xFF complements. -/
theorem xkXorsTheRoundKey : Obligations.XkXorsTheRoundKey := by
  refine ⟨fun _ => rfl, fun kk s hl hp => ?_, by decide⟩
  have hexec : exec (.xk kk) s = .next (Spec.written (s.st ^^^ s.rk.get kk.toFin) s) :=
    exec_microOp_run (.xk kk) hl hp
  have hones : s.st ^^^ 0xFF#8 = ~~~s.st := BitVec.xor_allOnes
  exact ⟨hexec, fun h0 => by rw [hexec, h0, BitVec.xor_zero], fun h1 => by rw [hexec, h1, hones]⟩

/-- Settles O21: SUB writes back the substitution with SBOX. -/
theorem subLooksUpBothNibbles : Obligations.SubLooksUpBothNibbles := by
  refine ⟨rfl, fun s hl hp => ⟨substitute s.st s.cfg.sbox, exec_microOp_run .sub hl hp, ?_, ?_⟩, by decide⟩
  · exact toFin_highNibble_substitute s.st s.cfg.sbox
  · exact toFin_lowNibble_substitute s.st s.cfg.sbox

/-- Settles O22: ISUB writes back the substitution with INV_SBOX, whose entries SBOX sends back. -/
theorem isubLooksUpBothNibblesInTheInverse : Obligations.IsubLooksUpBothNibblesInTheInverse := by
  refine ⟨rfl, fun s hl hp => ?_, by decide⟩
  have hhigh := toFin_highNibble_substitute s.st (invSboxTable s.cfg)
  have hlow := toFin_lowNibble_substitute s.st (invSboxTable s.cfg)
  exact ⟨substitute s.st (invSboxTable s.cfg), exec_microOp_run .isub hl hp, hhigh, hlow,
    (congrArg s.cfg.sbox.get hhigh).trans (get_invSboxTable s.cfg _),
    (congrArg s.cfg.sbox.get hlow).trans (get_invSboxTable s.cfg _)⟩

/-- Settles O23: PERM writes back the permutation with PERM, whose bits are read off the table. -/
theorem permRoutesTheBits : Obligations.PermRoutesTheBits := by
  refine ⟨rfl, fun s hl hp => ?_, permute_zero _, permute_allOnes _,
    fun b => ⟨getLsb_permute b permTable 2, setBits_permute permTable_bijective b⟩,
    permute_single get_invPermTable invPermTable_get, by decide⟩
  have hexec := exec_microOp_run .perm hl hp
  rw [apply_perm, permute_eq_ofBoolListBE] at hexec
  exact hexec

/-- Settles O24: IPERM writes back the permutation with INV_PERM, whose bits are read off the table. -/
theorem ipermRoutesTheBitsBack : Obligations.IpermRoutesTheBitsBack := by
  refine ⟨rfl, fun s hl hp => ?_, permute_zero _, permute_allOnes _,
    fun b => ⟨getLsb_permute b invPermTable 2, setBits_permute invPermTable_bijective b⟩, by decide⟩
  have hexec := exec_microOp_run .iperm hl hp
  rw [apply_iperm, permute_eq_ofBoolListBE, invPermTable_eq] at hexec
  exact hexec

/-- Settles O47: XK is an involution, and XOR is associative. -/
theorem xkLaws : Obligations.XkLaws := by
  intro c rk kk
  have hinv := apply_xk_involutive c rk kk
  refine ⟨hinv.bijective, hinv, fun jj ll rk' s hk => ?_⟩
  rw [apply_xk, apply_xk, apply_xk, hk, BitVec.xor_assoc]

/-- Settles O49: each lane of the result is the table's entry at that lane of the block. -/
theorem substitutionLanesAreIndependent : Obligations.SubstitutionLanesAreIndependent := by
  intro t b b'
  refine ⟨toFin_highNibble_substitute b t, toFin_lowNibble_substitute b t, fun h => ?_, fun h => ?_, fun h => ?_⟩
  · rw [highNibble_substitute, highNibble_substitute, h]
  · rw [lowNibble_substitute, lowNibble_substitute, h]
  · rw [highNibble_substitute, lowNibble_substitute, h]

/-- Settles O50: the elaborated table is the inverse of PERM, so the permutations undo each other. -/
theorem permAndIpermAreInverse : Obligations.PermAndIpermAreInverse :=
  ⟨invPermTable_eq, fun i => ⟨invPermTable_get i, get_invPermTable i⟩,
    fun b => ⟨permute_perm_invPerm b, permute_invPerm_perm b⟩⟩

/-- Settles O51: seven steps through the table lead every position back to itself. -/
theorem permHasOrderSeven : Obligations.PermHasOrderSeven := by
  have hseven : ∀ i, permTable.get^[7] i = i := by decide
  refine ⟨permute_bijective permTable_bijective, by decide, by decide, fun b => ?_, by decide, by decide⟩
  exact block_eq_of_getLsb fun i => by rw [getLsb_iterate_permute, hseven]

end Sys2Proof.Machine
end

section
/-! PROOFS. The edges of the core and what a command's edges add up to (spec/41_pipeline.md R130 to R146): the hold and
the accept edge, the pure functions as the traces of the two sequences, decryption as the inverse sequence, and a
command edge by edge from its accept edge to its completion. -/

namespace Sys2Proof.Machine

/-! ## Lemmas -/

/-! What a state in IDLE or in RUN shows as `busy`, and its legality past the edge (R21, R39). -/

theorem busy_of_run {s : State} (hp : s.phase = .run) : s.busy = true := by
  simp [State.busy, hp]

theorem busy_of_idle {s : State} (hp : s.phase = .idle) : s.busy = false := by
  simp [State.busy, hp]

theorem legal_skipEdge {s : State} (h : s.Legal) : s.skipEdge.Legal := h

/-! The two edges in IDLE. -/

/-- An idle edge with `start = 0` lets the edge pass and does nothing else (R131). -/
theorem step_hold {s : State} (hl : s.Legal) (hr : s.ports.rst = false) (hp : s.phase = .idle)
    (hs : s.ports.start = false) : step s = .next s.tick := by
  obtain ⟨-, -, e⟩ | ⟨-, hs', -⟩ | ⟨hp', -⟩ := step_legal hl hr
  · exact e
  · rw [hs] at hs'; cases hs'
  · rw [hp] at hp'; cases hp'

/-- An idle edge with `start = 1` accepts the command on the ports (R132). -/
theorem step_accept {s : State} (hl : s.Legal) (hr : s.ports.rst = false) (hp : s.phase = .idle)
    (hs : s.ports.start = true) : step s = .next (s.accept s.ports.mode s.ports.key s.ports.din).tick := by
  obtain ⟨-, hs', -⟩ | ⟨-, -, e⟩ | ⟨hp', -⟩ := step_legal hl hr
  · rw [hs] at hs'; cases hs'
  · exact e
  · rw [hp] at hp'; cases hp'

/-- The four round keys, written out (spec/40_primitives.md R100). -/
theorem roundKeys_eq (key : Key) : roundKeys key =
    #v[key.extractLsb' 0 8, key.extractLsb' 8 8, key.extractLsb' 16 8, key.extractLsb' 24 8] := rfl

/-! The pure functions of R136 and R137 as the traces of the two sequences. -/

/-- The rounds of `Enc` and `Dec` are the 12 micro-operations of the selected sequence, in order (R145). -/
theorem cipher_eq_traceAt (c : Config) (m : Mode) (din : Block) (key : Key) :
    cipher c m din key = traceAt c m key din 12 := by
  cases m with
  | enc => rw [traceAt, microOps_enc]; rfl
  | dec => rw [traceAt, microOps_dec]; rfl

/-- All 12 micro-operations of a sequence are its whole list. -/
theorem traceAt_twelve (c : Config) (m : Mode) (key : Key) (din : Block) :
    traceAt c m key din 12 = (microOps m).foldl (fun s u => u.apply c (roundKeys key) s) din := by
  have hlen : (microOps m).length ≤ 12 := by cases m <;> decide
  rw [traceAt, List.take_of_length_le hlen]

/-! Decryption runs the inverse micro-operations in the opposite order. -/

/-- The micro-operation that undoes u (spec/40_primitives.md R103, R111, R119). -/
def MicroOp.inverse : MicroOp → MicroOp
  | .xk kidx => .xk kidx
  | .sub => .isub
  | .isub => .sub
  | .perm => .iperm
  | .iperm => .perm

theorem apply_inverse_apply (c : Config) (rk : Vector Block 4) (u : MicroOp) (b : Block) :
    u.inverse.apply c rk (u.apply c rk b) = b := by
  cases u with
  | xk kk => exact apply_xk_involutive c rk kk b
  | sub => exact substitute_sbox_invSbox c b
  | isub => exact substitute_invSbox_sbox c b
  | perm => exact permute_perm_invPerm b
  | iperm => exact permute_invPerm_perm b

/-- The inverses in the opposite order undo a list of micro-operations. -/
theorem foldl_inverse_foldl (c : Config) (rk : Vector Block 4) (us : List MicroOp) (b : Block) :
    (us.reverse.map MicroOp.inverse).foldl (fun s u => u.apply c rk s)
      (us.foldl (fun s u => u.apply c rk s) b) = b := by
  induction us generalizing b with
  | nil => rfl
  | cons u us ih =>
    rw [List.reverse_cons, List.map_append, List.foldl_append, List.foldl_cons, ih]
    exact apply_inverse_apply c rk u b

/-- The command that undoes a command. -/
def Mode.inverse : Mode → Mode
  | .enc => .dec
  | .dec => .enc

/-- Either sequence of R76 is the other one backwards, micro-operation by inverse micro-operation. -/
theorem microOps_inverse (m : Mode) : microOps (Mode.inverse m) = (microOps m).reverse.map MicroOp.inverse := by
  cases m with
  | enc => decide
  | dec => decide

/-- Either pure function undoes the other one under the same key (R138, R139). -/
theorem cipher_inverse_cipher (c : Config) (m : Mode) (b : Block) (key : Key) :
    cipher c (Mode.inverse m) (cipher c m b key) key = b := by
  rw [cipher_eq_traceAt, cipher_eq_traceAt, traceAt_twelve, traceAt_twelve, microOps_inverse, foldl_inverse_foldl]

/-- What waits in the schedule passes through a write-back unseen. -/
theorem writeBack_withInputs (v : Block) (s : State) (ps : List Ports) :
    ({ s with inputs := ps } : State).writeBack v = { s.writeBack v with inputs := ps } := by
  unfold State.writeBack
  by_cases h : s.step = 11#4
  · rw [if_pos h, if_pos h]
  · rw [if_neg h, if_neg h]

/-! Driven edges and the schedule: samples driven one by one are samples that stand in front of the schedule. -/

/-- Everything a driven edge that answers a next state can have done (R130). -/
theorem drive_next_cases {p : Ports} {s t : State} (h : drive p s = .next t) :
    (p.rst = true ∧ t = s.resetRegisters.skipEdge) ∨
    (p.rst = false ∧ s.Legal ∧ s.phase = .idle ∧ p.start = false ∧ t = s.skipEdge) ∨
    (p.rst = false ∧ s.Legal ∧ s.phase = .idle ∧ p.start = true ∧ t = (s.accept p.mode p.key p.din).skipEdge) ∨
    (p.rst = false ∧ s.Legal ∧ s.phase = .run ∧ ∃ u, (microOps s.opMode)[s.step.toNat]? = some u ∧
      t = (s.writeBack (u.apply s.cfg s.rk s.st)).skipEdge) := by
  obtain ⟨hr, rfl⟩ | ⟨hr, hl, hp, hs, rfl⟩ | ⟨hr, hl, hp, hs, rfl⟩ | ⟨hr, hl, hp, -⟩ := step_next_cases h
  · exact .inl ⟨hr, rfl⟩
  · exact .inr (.inl ⟨hr, hl, hp, hs, rfl⟩)
  · exact .inr (.inr (.inl ⟨hr, hl, hp, hs, rfl⟩))
  · obtain ⟨u, hu, e⟩ := drive_run (s := s) hl hp hr
    exact .inr (.inr (.inr ⟨hr, hl, hp, u, hu, Host.Outcome.next.inj (h.symm.trans e)⟩))

/-- A driven edge uses up its own sample only. -/
theorem inputs_of_drive {p : Ports} {s t : State} (h : drive p s = .next t) : t.inputs = s.inputs := by
  obtain ⟨-, rfl⟩ | ⟨-, -, -, -, rfl⟩ | ⟨-, -, -, -, rfl⟩ | ⟨-, -, -, u, -, rfl⟩ := drive_next_cases h
  · rfl
  · rfl
  · rfl
  · exact State.writeBack_inputs _ s

/-- A driven edge does not depend on the samples that wait behind it (R130). -/
theorem drive_withInputs {p : Ports} {s t : State} (h : drive p s = .next t) (ps : List Ports) :
    drive p { s with inputs := ps } = .next { t with inputs := ps } := by
  obtain ⟨hr, rfl⟩ | ⟨hr, hl, hp, hs, rfl⟩ | ⟨hr, hl, hp, hs, rfl⟩ | ⟨hr, hl, hp, u, hu, rfl⟩ := drive_next_cases h
  · exact drive_reset hr
  · exact drive_hold hl hp hr hs
  · exact drive_accept hl hp hr hs
  · obtain ⟨v, hv, e⟩ := drive_run (s := { s with inputs := ps }) hl hp hr
    obtain rfl : u = v := Option.some.inj (hu.symm.trans hv)
    rw [e, writeBack_withInputs]
    rfl

/-- Edges driven one by one go through a first edge. -/
theorem driveAll_cons_eq_next {p : Ports} {ps : List Ports} {s u : State} (h : driveAll (p :: ps) s = .next u) :
    ∃ t, drive p s = .next t ∧ driveAll ps t = .next u := by
  unfold driveAll at h
  split at h
  case h_1 t e => exact ⟨t, e, h⟩
  case h_2 => cases h
  case h_3 => cases h

/-- A run over scheduled samples answers what driving them one by one answers, with the rest still scheduled. -/
theorem core_run_of_driveAll {ps rest : List Ports} {s t : State} (hin : s.inputs = ps ++ rest)
    (h : driveAll ps { s with inputs := rest } = .next t) :
    Sys2Proof.core.run ps.length s = .next t ∧ t.inputs = rest := by
  induction ps generalizing s with
  | nil =>
    obtain rfl : s.inputs = rest := hin
    cases h
    exact ⟨core_run_zero s, rfl⟩
  | cons p ps ih =>
    obtain ⟨u, hu, ht⟩ := driveAll_cons_eq_next h
    obtain rfl : u.inputs = rest := inputs_of_drive hu
    have hs : { s with inputs := p :: (ps ++ u.inputs) } = s := by rw [← List.cons_append, ← hin]
    have hstep : step s = .next { u with inputs := ps ++ u.inputs } := by
      rw [← hs]
      exact drive_withInputs hu (ps ++ u.inputs)
    rw [List.length_cons, core_run_succ hstep]
    exact ih rfl ht

/-! A command edge by edge. -/

/-- The core after the accept edge of the command m of `key` and `din` and j of its 12 micro-operation edges, where
d is what `dout` showed before: still running at step j with `dout` as before (R133), or completed (R134). -/
structure State.Executed (c : Config) (m : Mode) (key : Key) (din d : Block) (j : Nat) (s : State) : Prop where
  legal     : s.Legal
  st        : s.st = traceAt c m key din j
  running   : j ≤ 11 → s.Running c m key din j ∧ s.doutR = d
  completed : j = 12 → s.Shows (traceAt c m key din 12)

section
variable {c : Config} {m : Mode} {key : Key} {din d : Block} {j : Nat} {s : State}

/-- A command that is not at its last micro-operation is at another step than 11. -/
theorem State.Running.step_ne (h : s.Running c m key din j) (hj : j ≠ 11) : s.step ≠ 11#4 := by
  intro hs
  have hstep := h.step
  rw [hs] at hstep
  exact hj hstep.symm

/-- One more micro-operation edge takes the command one place on or completes it, whatever the ports carry (R135). -/
theorem State.Executed.drive {p : Ports} (h : s.Executed c m key din d j) (hj : j ≤ 11) (hr : p.rst = false) :
    ∃ t, drive p s = .next t ∧ t.Executed c m key din d (j + 1) := by
  obtain ⟨hrun, hdout⟩ := h.running hj
  obtain ⟨u, hu, e⟩ := hrun.drive hr
  refine ⟨_, e, legal_skipEdge (legal_writeBack hrun.legal hrun.phase),
    (State.writeBack_st _ s).trans (traceAt_succ hu).symm, ?_, ?_⟩
  · intro hlt
    have hne : j ≠ 11 := by omega
    exact ⟨(hrun.writeBack hne hu).skipEdge,
      ((State.writeBack_doutR _ _).trans (if_neg (hrun.step_ne hne))).trans hdout⟩
  · intro hlast
    obtain rfl : j = 11 := by omega
    exact (hrun.writeBack_last hu).skipEdge

/-- Micro-operation edges, driven one after the other. -/
theorem State.Executed.driveAll {qs : List Ports} (h : s.Executed c m key din d j) (hlen : j + qs.length ≤ 12)
    (hr : ∀ q ∈ qs, q.rst = false) : ∃ t, driveAll qs s = .next t ∧ t.Executed c m key din d (j + qs.length) := by
  induction qs generalizing j s with
  | nil => exact ⟨s, driveAll_nil s, h⟩
  | cons q qs ih =>
    obtain ⟨hq, hqs⟩ := List.forall_mem_cons.mp hr
    rw [List.length_cons] at hlen
    obtain ⟨t, e, ht⟩ := h.drive (by omega) hq
    rw [driveAll_cons e, List.length_cons, Nat.add_comm qs.length 1, ← Nat.add_assoc]
    exact ih ht (by omega) hqs

end

/-- The accept edge and up to 12 more edges without a reset, driven one after the other (R132, R133). -/
theorem driveAll_accepted {s : State} {p : Ports} {qs : List Ports} (hl : s.Legal) (hp : s.phase = .idle)
    (hr : p.rst = false) (hs : p.start = true) (hlen : qs.length ≤ 12) (hq : ∀ q ∈ qs, q.rst = false) :
    ∃ t, driveAll (p :: qs) s = .next t ∧ t.Executed s.cfg p.mode p.key p.din s.doutR qs.length := by
  have haccept : (s.accept p.mode p.key p.din).skipEdge.Executed s.cfg p.mode p.key p.din s.doutR 0 :=
    ⟨legal_skipEdge (legal_accept hl), rfl, fun _ => ⟨(State.Running.accept hl).skipEdge, rfl⟩, fun h => by cases h⟩
  rw [driveAll_cons (drive_accept hl hp hr hs)]
  simpa using haccept.driveAll (by omega) hq

/-- The accept edge and up to 12 more edges without a reset, as a run of the core over its schedule (R132, R133). -/
theorem core_run_accepted {s : State} {p : Ports} {qs rest : List Ports} (hl : s.Legal) (hp : s.phase = .idle)
    (hin : s.inputs = p :: (qs ++ rest)) (hr : p.rst = false) (hs : p.start = true) (hlen : qs.length ≤ 12)
    (hq : ∀ q ∈ qs, q.rst = false) :
    ∃ t, Sys2Proof.core.run (qs.length + 1) s = .next t ∧
      t.Executed s.cfg p.mode p.key p.din s.doutR qs.length ∧ t.inputs = rest := by
  obtain ⟨t, e, h⟩ := driveAll_accepted (s := { s with inputs := rest }) hl hp hr hs hlen hq
  obtain ⟨hrun, hrest⟩ := core_run_of_driveAll (ps := p :: qs) hin e
  exact ⟨t, hrun, h, hrest⟩

/-! ## The obligations -/

/-- Settles O13: the step only lets the edge pass. -/
theorem idleHoldChangesNoRegister : Obligations.IdleHoldChangesNoRegister :=
  fun _ hl hr hp hs => step_hold hl hr hp hs

/-- Settles O15: the step is the accept of the command on the ports, with the round keys written out. -/
theorem acceptEdgeTakesThePorts : Obligations.AcceptEdgeTakesThePorts := by
  intro s hl hr hp hs
  rw [step_accept hl hr hp hs, ← roundKeys_eq]
  rfl

/-- Settles O40: the core is running at step j after j micro-operation edges, and the twelfth completes the command; the
state it leaves is a legal idle state again. -/
theorem commandCompletesAfterTwelveEdges : Obligations.CommandCompletesAfterTwelveEdges := by
  intro s p qs rest hl hp hin hr hs hlen hq
  constructor
  · intro j hj
    have hjlen : (qs.take j).length = j := List.length_take_of_le (by omega)
    have hin' : s.inputs = p :: (qs.take j ++ (qs.drop j ++ rest)) := by
      rw [← List.append_assoc, List.take_append_drop, hin]
    obtain ⟨t, e, h, -⟩ := core_run_accepted hl hp hin' hr hs (by omega) fun q hmem => hq q (List.mem_of_mem_take hmem)
    rw [hjlen] at e h
    obtain ⟨hrun, hdout⟩ := h.running (by omega)
    exact ⟨t, e, busy_of_run hrun.phase, doneR_of_run hrun.legal hrun.phase, hdout⟩
  · obtain ⟨t, e, h, hrest⟩ := core_run_accepted hl hp hin hr hs (by omega) hq
    have hshows := h.completed hlen
    rw [hlen] at e
    refine ⟨t, e, hshows.doutR.trans (cipher_eq_traceAt _ _ _ _).symm, hshows.doneR, busy_of_idle hshows.phase,
      hshows.phase, hrest, ?_⟩
    intro q more hcons hqr hqs
    obtain rfl : t.ports = q := State.ports_cons (hrest.trans hcons)
    exact ⟨_, step_accept h.legal hqr hshows.phase hqs, rfl, rfl, rfl, rfl, rfl⟩

/-- Settles O41: `st` follows the trace of the sequence edge by edge, and the whole trace is the pure function. -/
theorem intermediateStatesFollowTheSequence : Obligations.IntermediateStatesFollowTheSequence := by
  intro s p qs hl hp hr hs hlen hq
  obtain ⟨t, e, h⟩ := driveAll_accepted hl hp hr hs hlen hq
  exact ⟨t, e, h.st, fun h12 => (h.completed h12).doutR.trans (cipher_eq_traceAt _ _ _ _).symm⟩

/-- Settles O42: the sequence of DEC undoes that of ENC from its last micro-operation to its first. -/
theorem decryptUndoesEncrypt : Obligations.DecryptUndoesEncrypt :=
  fun c p k => cipher_inverse_cipher c .enc p k

/-- Settles O43: each of the two sequences undoes the other, so both are bijections. -/
theorem encryptIsABijection : Obligations.EncryptIsABijection := by
  intro c k
  have hleft : Function.LeftInverse (fun x => decryptBlock c x k) (fun p => encryptBlock c p k) :=
    fun p => cipher_inverse_cipher c .enc p k
  have hright : Function.RightInverse (fun x => decryptBlock c x k) (fun p => encryptBlock c p k) :=
    fun x => cipher_inverse_cipher c .dec x k
  exact ⟨Function.bijective_iff_has_inverse.mpr ⟨_, hleft, hright⟩, hleft, hright⟩

end Sys2Proof.Machine
end

section
/-! PROOFS. Reset (spec/70_reset_and_hazards.md R200 to R203): a reset edge loads every register, and the state it leaves
stays until a command is presented. -/

namespace Sys2Proof.Machine

/-! ## Lemmas -/

/-- Every register is at its reset value (R40) under the configuration c; the model's own schedule and edge number are
left open. -/
def State.AtReset (c : Config) (s : State) : Prop :=
  s = { State.reset with cfg := c, inputs := s.inputs, edge := s.edge }

/-- A reset edge brings every register to its reset value, from any state (R200). -/
theorem State.AtReset.resetRegisters (s : State) : s.resetRegisters.AtReset s.cfg :=
  State.resetRegisters_eq_reset s

section
variable {c : Config} {s : State}

theorem State.AtReset.cfg (h : s.AtReset c) : s.cfg = c := by rw [h]

theorem State.AtReset.phase (h : s.AtReset c) : s.phase = .idle := by rw [h]; rfl

theorem State.AtReset.doutR (h : s.AtReset c) : s.doutR = 0x00#8 := by rw [h]; rfl

theorem State.AtReset.doneR (h : s.AtReset c) : s.doneR = false := by rw [h]; rfl

theorem State.AtReset.legal (h : s.AtReset c) : s.Legal := by
  rw [h]
  exact legal_resetRegisters { s with cfg := c }

theorem State.AtReset.skipEdge (h : s.AtReset c) : s.skipEdge.AtReset c :=
  congrArg State.skipEdge h

/-- The outputs after a reset edge (R200). -/
theorem State.AtReset.readOutputs (h : s.AtReset c) : s.readOutputs = .ok ⟨0x00#8, false, false⟩ := by rw [h]; rfl

/-- A reset edge loads the same values again, and an edge that presents no command holds them (R131, R203). -/
theorem State.AtReset.drive {p : Ports} (h : s.AtReset c) (hp : p.rst = true ∨ p.start = false) :
    ∃ t, drive p s = .next t ∧ t.AtReset c := by
  cases hr : p.rst with
  | true => exact ⟨_, drive_reset hr, h.cfg ▸ (State.AtReset.resetRegisters s).skipEdge⟩
  | false =>
    have hs : p.start = false := by simpa [hr] using hp
    exact ⟨_, drive_hold h.legal h.phase hr hs, h.skipEdge⟩

/-- The reset values stay for as long as every edge is a reset edge or presents no command. -/
theorem State.AtReset.driveAll {ps : List Ports} (h : s.AtReset c) (hps : ∀ p ∈ ps, p.rst = true ∨ p.start = false) :
    ∃ t, driveAll ps s = .next t ∧ t.AtReset c := by
  induction ps generalizing s with
  | nil => exact ⟨s, driveAll_nil s, h⟩
  | cons p ps ih =>
    obtain ⟨hp, hrest⟩ := List.forall_mem_cons.mp hps
    obtain ⟨t, e, ht⟩ := h.drive hp
    rw [driveAll_cons e]
    exact ih ht hrest

end

/-! ## The obligations -/

/-- Settles O9: the reset edge's register updates are the values listed, and the outputs show three of them. -/
theorem resetEdgeLoadsResetValues : Obligations.ResetEdgeLoadsResetValues :=
  fun s hr => ⟨s.resetRegisters.tick, step_reset hr, rfl, (State.AtReset.resetRegisters s).readOutputs⟩

/-- Settles O10: one reset edge leaves the reset values, further ones keep them, and they are a legal idle state, in
which the next command is accepted. -/
theorem oneResetEdgeIsEnough : Obligations.OneResetEdgeIsEnough := by
  intro s p q ps hp hps hqr hqs
  have ht : s.resetRegisters.skipEdge.AtReset s.cfg := (State.AtReset.resetRegisters s).skipEdge
  obtain ⟨u, eu, hu⟩ := ht.driveAll fun r hr => .inl (hps r hr)
  exact ⟨_, u, _, drive_reset hp, eu, drive_accept hu.legal hu.phase hqr hqs, ht, hu, rfl, rfl, rfl, rfl, rfl, rfl,
    hu.doutR⟩

/-- Settles O11: the reset edge leaves the reset values whatever was running, and without a new command no later edge
changes them. -/
theorem resetAbandonsTheCommand : Obligations.ResetAbandonsTheCommand := by
  intro s p ps _ hp hps
  have ht : s.resetRegisters.skipEdge.AtReset s.cfg := (State.AtReset.resetRegisters s).skipEdge
  obtain ⟨u, eu, hu⟩ := ht.driveAll fun q hq => .inr (hps q hq)
  exact ⟨_, u, drive_reset hp, eu, ht.doutR, ht.doneR, hu.doutR, hu.doneR, busy_of_idle hu.phase⟩

end Sys2Proof.Machine
end

section
/-! PROOFS. The words as notations of instructions (spec/30_encoding.md R70 to R75): decode and encode are inverse to
each other; and the key a host drives for an integer (R82). -/

namespace Sys2Proof.Machine

/-! ## Lemmas -/

/-- A command word is its three fields (R72). -/
theorem packCmd_fields (w : CmdWord) :
    packCmd (w.extractLsb' 40 1) (w.extractLsb' 8 32) (w.extractLsb' 0 8) = w := by
  apply BitVec.eq_of_getLsbD_eq
  intro i hi
  rw [getLsbD_packCmd]
  split_ifs with h8 h40
  · simp [h8]
  · simp [show i - 8 < 32 by omega, show 8 + (i - 8) = i by omega]
  · simp [show i - 40 < 1 by omega, show 40 + (i - 40) = i by omega]

/-- The command a command word stands for has that word (R70, R72). -/
theorem encode_decodeCmd (w : CmdWord) : encode (decodeCmd w) = .cmd w := by
  have hbit : ∀ m : BitVec 1, m ≠ 0b0#1 → m = 0b1#1 := by decide
  have hfields := packCmd_fields w
  unfold decodeCmd
  split_ifs with hm
  · rw [hm] at hfields
    rw [encode, hfields]
  · rw [hbit _ hm] at hfields
    rw [encode, hfields]

/-- The micro-operation a word stands for has that word: the decoder reads each class it gives a meaning off the two
fields of the word (R74, R75). -/
theorem encode_of_decodeUop {w : UopWord} {i : Instr} (h : decodeUop w = .ok i) : encode i = .uop w := by
  have hclass : ∀ c : BitVec 3, c ≠ 0b000#3 → ¬ (c = 0b101#3 ∨ c = 0b110#3 ∨ c = 0b111#3) → c ≠ 0b001#3 →
      c ≠ 0b010#3 → c ≠ 0b011#3 → c = 0b100#3 := by decide
  rw [UopWord.ext_fields w]
  unfold decodeUop at h
  split_ifs at h with hxk hbad hidx hsub hisub hperm <;> cases h
  · rw [hxk, encode]
  · rw [hsub, not_not.mp hidx]; rfl
  · rw [hisub, not_not.mp hidx]; rfl
  · rw [hperm, not_not.mp hidx]; rfl
  · rw [hclass _ hxk hbad hsub hisub hperm, not_not.mp hidx]; rfl

/-- The decoder reads back what the encoder wrote, with every operand at every value. -/
theorem decode_encode (i : Instr) : decode (encode i) = .ok i := by
  have hxk : ∀ kidx : BitVec 2, decodeUop (0b000#3 ++ kidx) = .ok (.xk kidx) := by decide
  cases i with
  | enc key din => simp [encode, decode, decodeCmd]
  | dec key din => simp [encode, decode, decodeCmd]
  | xk kidx => exact hxk kidx
  | sub => rfl
  | isub => rfl
  | perm => rfl
  | iperm => rfl

/-- The encoder writes back what the decoder read. -/
theorem encode_of_decode {c : CodeWord} {i : Instr} (h : decode c = .ok i) : encode i = c := by
  cases c with
  | cmd w => cases h; exact encode_decodeCmd w
  | uop w => exact encode_of_decodeUop h

/-- The number a host drives as the key: the low 32 bits of the integer (R82). -/
theorem toNat_hostKey (k : Int) : ((hostKey k).toNat : Int) = k % 2 ^ 32 := by
  rw [hostKey, BitVec.toNat_ofInt, Int.toNat_of_nonneg (Int.emod_nonneg k (by decide))]
  rfl

/-- Byte i of an integer is byte i of its low 32 bits. -/
theorem byte_emod (k : Int) (i : Fin 4) : k % 2 ^ 32 / 2 ^ (8 * i.val) % 256 = k / 2 ^ (8 * i.val) % 256 := by
  fin_cases i <;> simp <;> omega

/-! ## The obligations -/

/-- Settles O1: the encoder is a right inverse and a left inverse of the decoder. -/
theorem decodesExactlyTheEncodings : Obligations.DecodesExactlyTheEncodings :=
  fun _ i => ⟨encode_of_decode, fun h => h ▸ decode_encode i⟩

/-- Settles O2: each word is the encoding of its instruction, so it decodes to it. -/
theorem writtenOutWordsDecode : Obligations.WrittenOutWordsDecode :=
  ⟨decode_encode (.xk 0), decode_encode (.xk 1), decode_encode (.xk 2), decode_encode (.xk 3), decode_encode .sub,
    decode_encode .isub, decode_encode .perm, decode_encode .iperm, decode_encode (.enc 0x12345678#32 0x3C#8),
    decode_encode (.dec 0xDEADBEEF#32 0x00#8)⟩

/-- Settles O17: round key i is byte i of the low 32 bits, and that is byte i of the integer. -/
theorem hostKeyBytes : Obligations.HostKeyBytes := by
  constructor
  · intro k i
    rw [toNat_get_roundKeys]
    push_cast
    rw [toNat_hostKey, byte_emod]
  · intro k hk
    have hmod := toNat_hostKey k
    omega

end Sys2Proof.Machine
end

section
/-! PROOFS. One edge and the instruction it runs (spec/41_pipeline.md R130 to R135): where the word of an edge comes
from, what a placed word runs, and what an edge leaves as it was. -/

namespace Sys2Proof.Machine

/-! ## Lemmas -/

/-! The micro-operations among the instructions. -/

@[simp] theorem isMicroOp_toInstr (u : MicroOp) : u.toInstr.isMicroOp = true := by
  cases u <;> rfl

/-- An internal micro-operation is one of the datapath's five. -/
theorem exists_toInstr_of_isMicroOp {i : Instr} (h : i.isMicroOp = true) : ∃ u : MicroOp, i = u.toInstr := by
  obtain ⟨key, din, rfl⟩ | ⟨key, din, rfl⟩ | hu := command_or_microOp i
  · cases h
  · cases h
  · exact hu

/-- A command that answers a next state in IDLE is accepted (R132). -/
theorem eq_accept_of_commandEdge {m : Mode} {key : Key} {din : Block} {s t : State} (hp : s.phase = .idle)
    (h : commandEdge m key din s = .next t) : t = s.accept m key din := by
  obtain ⟨-, ⟨-, ht⟩ | ⟨hp', -⟩⟩ := commandEdge_next h
  · exact ht
  · rw [hp] at hp'; cases hp'

/-- A micro-operation in a legal state in IDLE is refused by name (log 7). -/
theorem microOpEdge_idle {s : State} (u : MicroOp) (hl : s.Legal) (hp : s.phase = .idle) :
    microOpEdge u s = .refused .microOpWhileIdle := by
  simp [microOpEdge, guard_eq_none_iff.mpr hl, hp]

/-- In a legal state every instruction answers a next state, a micro-operation in RUN only (R174). -/
theorem exec_next_of_legal {i : Instr} {s : State} (hl : s.Legal) (hrun : i.isMicroOp = true → s.phase = .run) :
    ∃ t, exec i s = .next t := by
  have hcommand : ∀ m key din, ∃ t, commandEdge m key din s = .next t := by
    intro m key din
    cases hp : s.phase with
    | idle => exact ⟨_, commandEdge_idle hl hp⟩
    | run =>
      obtain ⟨u, -, e⟩ := runEdge_run hl hp
      exact ⟨_, (commandEdge_run hl hp).trans e⟩
  obtain ⟨key, din, rfl⟩ | ⟨key, din, rfl⟩ | ⟨u, rfl⟩ := command_or_microOp i
  · exact hcommand .enc key din
  · exact hcommand .dec key din
  · exact ⟨_, (exec_toInstr u s).trans (microOpEdge_run hl (hrun (isMicroOp_toInstr u)))⟩

/-! The word of an edge. -/

/-- In a legal state in IDLE the word is the command on the ports, if one is presented (R71, R131). -/
theorem fetch_idle {s : State} (hl : s.Legal) (hp : s.phase = .idle) :
    fetch s = .ok (if s.ports.start then some (.cmd (cmdWordOf s.ports)) else none) := by
  simp [fetch, guard_eq_none_iff.mpr hl, hp]

/-- In a legal state in RUN the word is the ROM's at `step` (R133). -/
theorem fetch_run {s : State} {w : UopWord} (hl : s.Legal) (hp : s.phase = .run)
    (hw : romWord s.opMode s.step = some w) : fetch s = .ok (some (.uop w)) := by
  simp [fetch, guard_eq_none_iff.mpr hl, hp, hw]

/-- A step with a word to execute is the instruction of that word, and then the edge has passed. -/
theorem step_of_fetch {s : State} {c : CodeWord} {i : Instr} (hr : s.ports.rst = false)
    (hf : fetch s = .ok (some c)) (hd : decode c = .ok i) : step s = mapNext State.tick (exec i s) := by
  simp [step, clockEdge, hr, hf, executeWord, hd]

/-! Placed words (log 3). -/

/-- The ports on which a command word is placed spell that word (R70, R72). -/
theorem cmdWordOf_placed (w : CmdWord) :
    cmdWordOf ⟨false, true, if w.extractLsb' 40 1 = 0b0#1 then .enc else .dec, w.extractLsb' 0 8, w.extractLsb' 8 32⟩
      = w := by
  have hmode : ∀ b : BitVec 1, modeBit (if b = 0b0#1 then .enc else .dec) = b := by decide
  rw [cmdWordOf, hmode, packCmd_fields]

/-- The coming edge is no reset edge, the state is legal, and c is the word the edge takes. -/
structure State.RunsNext (c : CodeWord) (s : State) : Prop where
  legal   : s.Legal
  noReset : s.ports.rst = false
  fetch   : Sys2Proof.Machine.fetch s = .ok (some c)

/-- A placed command word is on the ports of a legal idle state. -/
theorem placeWord_cmd (w : CmdWord) (s : State) : (placeWord (.cmd w) s).RunsNext (.cmd w) := by
  have hl : (placeWord (.cmd w) s).Legal := by simp [placeWord, State.Legal, State.busy]
  refine ⟨hl, rfl, (fetch_idle hl rfl).trans ?_⟩
  exact congrArg (fun c => Except.ok (some (CodeWord.cmd c))) (cmdWordOf_placed w)

/-- Every micro-operation has a place in the ROM, and the ROM holds its word there (R76). -/
theorem exists_romPlace (u : MicroOp) :
    ∃ w m i, encode u.toInstr = .uop w ∧ romPlace w = some (m, i) ∧ romWord m i = some w ∧ i.toNat ≤ 11 := by
  have hxk : ∀ kidx : BitVec 2, ∃ i : BitVec 4,
      romPlace (0b000#3 ++ kidx) = some (.enc, i) ∧ romWord .enc i = some (0b000#3 ++ kidx) ∧ i.toNat ≤ 11 := by decide
  cases u with
  | xk kidx =>
    obtain ⟨i, hplace⟩ := hxk kidx
    exact ⟨_, _, i, rfl, hplace⟩
  | sub => exact ⟨_, .enc, 1#4, rfl, by decide⟩
  | isub => exact ⟨_, .dec, 1#4, rfl, by decide⟩
  | perm => exact ⟨_, .enc, 2#4, rfl, by decide⟩
  | iperm => exact ⟨_, .dec, 3#4, rfl, by decide⟩

/-- A word placed in the ROM is the one at `step` in a legal state in RUN. -/
theorem placeWord_uop {w : UopWord} {m : Mode} {i : BitVec 4} (s : State) (hplace : romPlace w = some (m, i))
    (hw : romWord m i = some w) (hi : i.toNat ≤ 11) :
    (placeWord (.uop w) s).RunsNext (.uop w) ∧ (placeWord (.uop w) s).phase = .run := by
  have hplaced : placeWord (.uop w) s =
      { s with
        phase := .run, step := i, opMode := m, doneR := false, resetSeen := true,
        inputs := { s.ports with rst := false } :: s.inputs.tail } := by
    simp [placeWord, hplace]
  have hl : (placeWord (.uop w) s).Legal := by simp [hplaced, State.Legal, State.done, hi]
  rw [hplaced] at hl ⊢
  exact ⟨⟨hl, rfl, fetch_run hl rfl hw⟩, rfl⟩

/-- The word of any instruction, once placed, is the word of the coming edge, in a state that can run it. -/
theorem placeWord_encode (i : Instr) (s : State) :
    (placeWord (encode i) s).RunsNext (encode i) ∧
      (i.isMicroOp = true → (placeWord (encode i) s).phase = .run) := by
  obtain ⟨key, din, rfl⟩ | ⟨key, din, rfl⟩ | ⟨u, rfl⟩ := command_or_microOp i
  · exact ⟨placeWord_cmd _ s, fun h => by cases h⟩
  · exact ⟨placeWord_cmd _ s, fun h => by cases h⟩
  · obtain ⟨w, m, j, hw, hplace, hrom, hj⟩ := exists_romPlace u
    obtain ⟨hnext, hp⟩ := placeWord_uop s hplace hrom hj
    rw [hw]
    exact ⟨hnext, fun _ => hp⟩

/-! The edge in RUN. -/

/-- A step in RUN without a reset writes back the micro-operation at `step` (R133, R135). -/
theorem step_run {s : State} (hl : s.Legal) (hp : s.phase = .run) (hr : s.ports.rst = false) :
    ∃ v, step s = .next (s.writeBack v).tick := by
  obtain ⟨hp', -⟩ | ⟨hp', -⟩ | ⟨-, u, -, e⟩ := step_legal hl hr
  · rw [hp] at hp'; cases hp'
  · rw [hp] at hp'; cases hp'
  · exact ⟨_, e⟩

/-- The next step of a sequence does not wrap (R142). -/
theorem toNat_succ_of_le_eleven {x : BitVec 4} (h : x.toNat ≤ 11) : (x + 1#4).toNat = x.toNat + 1 := by
  rw [BitVec.toNat_add, BitVec.toNat_ofNat]
  omega

/-! ## The obligations -/

/-- Settles O7: what the fetch answers in IDLE, by `start`, and in RUN, where the ROM's word decodes. -/
theorem fetchTakesPortsInIdleAndRomInRun : Obligations.FetchTakesPortsInIdleAndRomInRun := by
  intro s hl
  refine ⟨fun hp hs => by rw [fetch_idle hl hp, hs]; rfl, fun hp hs => by rw [fetch_idle hl hp, hs]; rfl, fun hp => ?_⟩
  have ⟨_, _, hstep, _⟩ := hl
  obtain ⟨w, u, hw, hd, -⟩ := romWord_decodes s.opMode s.step (hstep hp)
  exact ⟨w, u.toInstr, hw, fetch_run hl hp hw, hd, isMicroOp_toInstr u⟩

/-- Settles O6: the passing of the edge is the two updates of the model's own fields. -/
theorem stepRunsTheFetchedInstruction : Obligations.StepRunsTheFetchedInstruction := by
  intro s c i hr hf hd
  rw [step_of_fetch hr hf hd]
  cases exec i s <;> rfl

/-- Settles O8: the placed word is fetched and decodes to the instruction, which runs in the state of its placing. -/
theorem placedWordRunsNext : Obligations.PlacedWordRunsNext := by
  intro i s
  obtain ⟨hnext, hrun⟩ := placeWord_encode i s
  obtain ⟨t, e⟩ := exec_next_of_legal hnext.legal hrun
  refine ⟨t, e, ?_⟩
  rw [step_of_fetch hnext.noReset hnext.fetch (decode_encode i), e]
  rfl

/-- Settles O14: both commands are accepted, with the round keys written out. -/
theorem commandsAreAcceptedInIdle : Obligations.CommandsAreAcceptedInIdle := by
  intro s key din hl hp
  rw [← roundKeys_eq]
  exact ⟨commandEdge_idle hl hp, commandEdge_idle hl hp⟩

/-- Settles O19: no edge in RUN is an accept edge, so the ports do not matter, an exec of a command is the edge in RUN,
and a start held over step 11 meets the legal idle state that the completion leaves. -/
theorem startWhileBusyIsIgnored : Obligations.StartWhileBusyIsIgnored := by
  refine ⟨fun s p q hp hpr hqr => ?_, fun s key din hl hp => ?_, fun s p q hl hp h11 hpr _ hqr hqs => ?_⟩
  · exact drive_eq_drive_of_no_accept (hpr.trans hqr.symm) (.inl hp)
  · obtain ⟨u, hu, e⟩ := runEdge_run hl hp
    exact ⟨u, _, hu, (exec_toInstr u s).trans (microOpEdge_run hl hp), (commandEdge_run hl hp).trans e,
      (commandEdge_run hl hp).trans e⟩
  · obtain ⟨u, -, e⟩ := drive_run hl hp hpr
    have hidle : ∀ v, (s.writeBack v).phase = .idle := fun v => by simp [h11]
    have hdone : ∀ v, (s.writeBack v).doneR = true := fun v => by simp [h11]
    exact ⟨_, _, e, hidle _, hdone _,
      drive_accept (legal_skipEdge (legal_writeBack hl hp)) (hidle _) hqr hqs, rfl, rfl, rfl, rfl, rfl, rfl, rfl⟩

/-- Settles O25: the instruction is one of the five, and its edge is refused in IDLE. -/
theorem microOpInIdleIsRefused : Obligations.MicroOpInIdleIsRefused := by
  intro i s hi hl hp
  obtain ⟨u, rfl⟩ := exists_toInstr_of_isMicroOp hi
  rw [exec_toInstr, microOpEdge_idle u hl hp]

/-- Settles O26: the next state is the write-back, which completes at step 11 only. -/
theorem microOpFrame : Obligations.MicroOpFrame := by
  intro i s t hi h
  obtain ⟨u, rfl⟩ := exists_toInstr_of_isMicroOp hi
  rw [exec_toInstr] at h
  obtain ⟨-, -, rfl⟩ := microOpEdge_eq_next_iff.mp h
  refine ⟨State.writeBack_cfg _ s, State.writeBack_rk _ s, State.writeBack_opMode _ s, State.writeBack_resetSeen _ s,
    State.writeBack_inputs _ s, State.writeBack_edge _ s, fun h11 => ?_⟩
  simp [h11]

/-- Settles O27: in IDLE the next state is the accept. -/
theorem commandFrame : Obligations.CommandFrame := by
  intro key din s t hp h
  obtain ⟨m, rfl⟩ : ∃ m, t = s.accept m key din :=
    h.elim (fun h => ⟨.enc, eq_accept_of_commandEdge hp h⟩) (fun h => ⟨.dec, eq_accept_of_commandEdge hp h⟩)
  exact ⟨rfl, rfl, rfl, rfl, rfl⟩

/-- Settles O33: the write-back advances `step` below 11 and completes at 11. -/
theorem stepAdvancesByOneInRun : Obligations.StepAdvancesByOneInRun := by
  intro s hl hp hr
  obtain ⟨v, e⟩ := step_run hl hp hr
  refine ⟨_, e, fun hlt => ?_, fun h11 => ?_, State.writeBack_opMode v s⟩
  · have hne : s.step ≠ 11#4 := fun h => by simp [h] at hlt
    have hsucc := toNat_succ_of_le_eleven hlt.le
    simp [hne, hsucc, hp]
  · have hstep : s.step = 11#4 := BitVec.eq_of_toNat_eq h11
    simp [hstep]

end Sys2Proof.Machine
end

section
/-! PROOFS. Legal states (spec/10_state.md R39, spec/60_exceptions.md section 2): every step lands in one, none stops
the core, and what is refused outside them; and the round keys from an accept edge to the next. -/

namespace Sys2Proof.Machine

/-! ## Lemmas -/

/-- A step that answers a next state answers a legal one: a reset edge makes it legal, and every other edge answers from
a legal state only and keeps it legal. -/
theorem legal_of_step {s t : State} (h : step s = .next t) : t.Legal := by
  obtain ⟨-, rfl⟩ | ⟨-, hl, -, -, rfl⟩ | ⟨-, hl, -, -, rfl⟩ | ⟨-, hl, hp, u, -, rfl⟩ := step_next_cases h
  · exact legal_tick (legal_resetRegisters s)
  · exact legal_tick hl
  · exact legal_tick (legal_accept hl)
  · exact legal_tick (legal_writeBack hl hp)

/-- A legal state has a next one, whatever the ports carry. -/
theorem step_next_of_legal {s : State} (hl : s.Legal) : ∃ t, step s = .next t := by
  cases hr : s.ports.rst with
  | true => exact ⟨_, step_reset hr⟩
  | false =>
    obtain ⟨-, -, e⟩ | ⟨-, -, e⟩ | ⟨-, u, -, e⟩ := step_legal hl hr
    · exact ⟨_, e⟩
    · exact ⟨_, e⟩
    · exact ⟨_, e⟩

/-- Every run from a legal state goes on, since every step lands in a legal state. -/
theorem safeRun_of_legal (n : Nat) {s : State} (hl : s.Legal) : SafeRun n s := by
  induction n generalizing s with
  | zero => exact ⟨s, core_run_zero s⟩
  | succ n ih =>
    obtain ⟨t, e⟩ := step_next_of_legal hl
    obtain ⟨u, hu⟩ := ih (legal_of_step e)
    exact ⟨u, (core_run_succ e).trans hu⟩

/-- An edge that is no reset edge is refused exactly in the states that are not legal. -/
theorem step_refused_iff_not_legal {s : State} (hr : s.ports.rst = false) :
    (∃ r, step s = .refused r) ↔ ¬ s.Legal := by
  constructor
  · rintro ⟨r, e⟩ hl
    obtain ⟨t, e'⟩ := step_next_of_legal hl
    rw [e] at e'; cases e'
  · intro hl
    cases hg : s.guard with
    | none => exact absurd (guard_eq_none_iff.mp hg) hl
    | some r => exact ⟨r, step_refused hr hg⟩

/-! The guard's reasons, one for each invariant (R29, R39, R204). -/

theorem guard_powerUp {s : State} (h : s.resetSeen = false) : s.guard = some .powerUp := by
  simp [State.guard, h]

theorem guard_stepOutOfRange {s : State} (h : s.resetSeen = true) (hp : s.phase = .run) (hs : 12 ≤ s.step.toNat) :
    s.guard = some .stepOutOfRange := by
  have hle : 12#4 ≤ s.step := hs
  simp [State.guard, h, hp, hle]

theorem guard_idleStepNonzero {s : State} (h : s.resetSeen = true) (hp : s.phase = .idle) (hs : s.step ≠ 0#4) :
    s.guard = some .idleStepNonzero := by
  simp [State.guard, h, hp, hs]

theorem guard_busyAndDone {s : State} (h : s.resetSeen = true) (hp : s.phase = .run) (hs : s.step.toNat ≤ 11)
    (hd : s.doneR = true) : s.guard = some .busyAndDone := by
  have hle : ¬ 12#4 ≤ s.step := fun h12 : 12 ≤ s.step.toNat => by omega
  simp [State.guard, h, hp, hle, hd]

/-- No outcome is a fault: there is no value that names one (R174). -/
theorem ne_fault (o : Host.Outcome State Fault Refusal) (r : Fault) : o ≠ .fault r := by
  cases r

/-! From an accept edge to the next (R39). -/

/-- The core k edges after the accept edge of a command under `key`, while no other command has been accepted: at step k
of the command, or, from the twelfth edge on, in IDLE. -/
structure State.HoldsKey (key : Key) (k : Nat) (s : State) : Prop where
  legal : s.Legal
  rk    : s.rk = roundKeys key
  place : (s.phase = .run ∧ s.step.toNat = k) ∨ (s.phase = .idle ∧ 12 ≤ k)

/-- One more edge without a reset, and without a request once the command is over, keeps the round keys. -/
theorem State.HoldsKey.drive {key : Key} {k : Nat} {s : State} {p : Ports} (h : s.HoldsKey key k) (hr : p.rst = false)
    (hs : 12 ≤ k → p.start = false) : ∃ t, drive p s = .next t ∧ t.HoldsKey key (k + 1) := by
  obtain ⟨hl, hrk, ⟨hp, hk⟩ | ⟨hp, hk⟩⟩ := h
  · obtain ⟨u, -, e⟩ := drive_run hl hp hr
    refine ⟨_, e, legal_skipEdge (legal_writeBack hl hp), (State.writeBack_rk _ s).trans hrk, ?_⟩
    have ⟨_, _, hstep, _⟩ := hl
    by_cases h11 : s.step = 11#4
    · have hphase : ∀ v, (s.writeBack v).phase = .idle := fun v => by simp [h11]
      have hlast : 12 ≤ k + 1 := by rw [← hk, h11]; decide
      exact .inr ⟨hphase _, hlast⟩
    · have hphase : ∀ v, (s.writeBack v).phase = .run := fun v => by simp [h11, hp]
      have hnext : ∀ v, (s.writeBack v).step.toNat = k + 1 := fun v => by
        simp only [State.writeBack_step, h11, if_false, toNat_succ_of_le_eleven (hstep hp), hk]
      exact .inl ⟨hphase _, hnext _⟩
  · exact ⟨_, drive_hold hl hp hr (hs hk), legal_skipEdge hl, hrk, .inr ⟨hp, by omega⟩⟩

/-- Any number of such edges keeps them. -/
theorem State.HoldsKey.driveAll {key : Key} {k : Nat} {s : State} {ps : List Ports} (h : s.HoldsKey key k)
    (hps : ∀ i q, ps[i]? = some q → q.rst = false ∧ (12 ≤ k + i → q.start = false)) :
    ∃ t, driveAll ps s = .next t ∧ t.HoldsKey key (k + ps.length) := by
  induction ps generalizing k s with
  | nil => exact ⟨s, driveAll_nil s, h⟩
  | cons p ps ih =>
    obtain ⟨hr, hs⟩ := hps 0 p rfl
    obtain ⟨t, e, ht⟩ := h.drive hr hs
    have hrest : ∀ i q, ps[i]? = some q → q.rst = false ∧ (12 ≤ k + 1 + i → q.start = false) := fun i q hq => by
      rw [Nat.add_assoc, Nat.add_comm 1 i]
      exact hps (i + 1) q hq
    rw [driveAll_cons e, List.length_cons, Nat.add_comm ps.length 1, ← Nat.add_assoc]
    exact ih ht hrest

/-! ## The obligations -/

/-- Settles O35, over the four kinds of edge. -/
theorem everyStepLandsInALegalState : Obligations.EveryStepLandsInALegalState :=
  fun _ _ h => legal_of_step h

/-- Settles O36: a reset edge leaves the reset state as it is, so what holds after one holds of it. -/
theorem resetStateHoldsTheResetValues : Obligations.ResetStateHoldsTheResetValues :=
  ⟨rfl, rfl, rfl, rfl, get_resetRegisters_rk State.reset, rfl, rfl, rfl, legal_resetRegisters State.reset⟩

/-- Settles O12: the guard refuses every edge but a reset edge, and that leaves a legal state. -/
theorem powerUpRefusesAllButReset : Obligations.PowerUpRefusesAllButReset := by
  intro s h
  refine ⟨by simp [State.readOutputs, h], fun hr => step_refused hr (guard_powerUp h), fun hr => ?_⟩
  exact ⟨_, step_reset hr, legal_tick (legal_resetRegisters s)⟩

/-- Settles O37: one step, and by induction on the number of edges every run. -/
theorem legalStatesNeverStop : Obligations.LegalStatesNeverStop :=
  ⟨fun _ => step_next_of_legal, fun n _ => safeRun_of_legal n⟩

/-- Settles O38: a legal state has a next one, and the guard names what is broken in another. -/
theorem refusedStatesAreNamed : Obligations.RefusedStatesAreNamed :=
  fun _ hr => ⟨step_refused_iff_not_legal hr,
    fun hseen hp hs => step_refused hr (guard_stepOutOfRange hseen hp hs),
    fun hseen hp hs => step_refused hr (guard_idleStepNonzero hseen hp hs),
    fun hseen hp hs hd => step_refused hr (guard_busyAndDone hseen hp hs hd)⟩

/-- Settles O39: there is no fault to raise, and in a legal state only a micro-operation in IDLE has no next state. -/
theorem noRunTimeException : Obligations.NoRunTimeException := by
  refine ⟨fun i s r => ⟨ne_fault _ r, ne_fault _ r⟩, fun s key din hl => ⟨?_, ?_⟩, fun i s _ hl hp => ?_⟩
  · exact exec_next_of_legal hl fun h => by cases h
  · exact exec_next_of_legal hl fun h => by cases h
  · exact exec_next_of_legal hl fun _ => hp

/-- Settles O31: the accept edge loads the key's bytes at step 0, and the later edges hold them. -/
theorem roundKeysStayUntilTheNextAccept : Obligations.RoundKeysStayUntilTheNextAccept := by
  intro s p ps hl hp hr hs hps
  have haccept : (s.accept p.mode p.key p.din).skipEdge.HoldsKey p.key 0 :=
    ⟨legal_skipEdge (legal_accept hl), rfl, .inl ⟨rfl, rfl⟩⟩
  obtain ⟨t, e, ht⟩ := haccept.driveAll fun i q hq => by simpa using hps i q hq
  refine ⟨t, (driveAll_cons (drive_accept hl hp hr hs)).trans e, fun i => ?_⟩
  rw [ht.rk, get_roundKeys]

end Sys2Proof.Machine
end

section
/-! PROOFS. Commands as a host sees them (spec/30_encoding.md section 4, spec/95_test_vectors.md section 2): the worked
examples, the steps of decryption against those of encryption, and the round trip of two host programs. -/

namespace Sys2Proof.Machine

/-! ## Lemmas -/

/-- Step j of DEC is the inverse of step 11 - j of ENC (spec/95_test_vectors.md section 2.5). -/
theorem microOps_dec_getElem? {j : Nat} (hj : j < 12) :
    (microOps .dec)[j]? = ((microOps .enc)[11 - j]?).map MicroOp.inverse := by
  have hlen : (microOps .enc).length = 12 := by decide
  have hdec : microOps .dec = (microOps .enc).reverse.map MicroOp.inverse := microOps_inverse .enc
  rw [hdec, List.getElem?_map, List.getElem?_reverse (by omega), hlen]

/-- `Enc` from the results of its three rounds (R136). -/
theorem encryptBlock_of_rounds {c : Config} {p a b d : Block} {k : Key}
    (ha : permute (substitute (p ^^^ (roundKeys k).get 0) c.sbox) permTable = a)
    (hb : permute (substitute (a ^^^ (roundKeys k).get 1) c.sbox) permTable = b)
    (hd : permute (substitute (b ^^^ (roundKeys k).get 2) c.sbox) permTable = d) :
    encryptBlock c p k = substitute (d ^^^ (roundKeys k).get 3) c.sbox ^^^ (roundKeys k).get 0 := by
  subst ha hb hd
  rfl

/-- No driven edge writes the configuration (R27). -/
theorem cfg_of_drive {p : Ports} {s t : State} (h : drive p s = .next t) : t.cfg = s.cfg := by
  obtain ⟨hstep, -⟩ := tablesAreNeverWritten
  exact hstep { s with inputs := p :: s.inputs } t h

theorem cfg_of_driveAll {ps : List Ports} {s t : State} (h : driveAll ps s = .next t) : t.cfg = s.cfg := by
  induction ps generalizing s with
  | nil => cases h; rfl
  | cons p ps ih =>
    obtain ⟨u, hu, ht⟩ := driveAll_cons_eq_next h
    rw [ih ht, cfg_of_drive hu]

/-! Host programs, statement by statement (R80). -/

section
variable {fill : Ports} {s t : State}

/-- A statement that reads nothing is its edges. -/
theorem runScript_cons {c : Stmt} {cs : List Stmt} (hc : c ≠ .read) (h : driveAll (c.samples fill) s = .next t) :
    runScript fill (c :: cs) s = runScript fill cs t := by
  cases c with
  | read => exact absurd rfl hc
  | reset | enc | dec | nop => simp [runScript, h]

/-- A READ at the end of a program records the outputs and changes nothing. -/
theorem runScript_read {o : Outputs} (h : s.readOutputs = .ok o) : runScript fill [.read] s = .next (s, [o]) := by
  simp [runScript, Stmt.samples, h]

end

/-- The statement that presents the command of a mode. -/
def Stmt.present (din : Block) (key : Key) : Mode → Stmt
  | .enc => .enc din key
  | .dec => .dec din key

/-- The edge of such a statement is a request on the ports, and it reads nothing. -/
theorem Stmt.samples_present (fill : Ports) (din : Block) (key : Key) (m : Mode) :
    (Stmt.present din key m).samples fill = [⟨false, true, m, din, key⟩] ∧ Stmt.present din key m ≠ .read := by
  cases m with
  | enc => exact ⟨rfl, nofun⟩
  | dec => exact ⟨rfl, nofun⟩

/-- A command presented in a legal idle state, waited for and read: the outputs are the pure function of its operands
with done 1 and busy 0, and the core is in a legal idle state again, with the same tables (R81, R144). -/
theorem runScript_command {s : State} (fill : Ports) (m : Mode) (din : Block) (key : Key) (hl : s.Legal)
    (hp : s.phase = .idle) :
    ∃ t, runScript fill [Stmt.present din key m, .nop 12, .read] s =
        .next (t, [⟨cipher s.cfg m din key, false, true⟩]) ∧
      t.Legal ∧ t.phase = .idle ∧ t.cfg = s.cfg := by
  obtain ⟨hsamples, hread⟩ := Stmt.samples_present fill din key m
  have hnop : Stmt.nop 12 ≠ .read := nofun
  have hwait : ((Stmt.nop 12).samples fill).length = 12 := List.length_replicate
  have hquiet : ∀ q ∈ (Stmt.nop 12).samples fill, q.rst = false := fun q hq => by rw [List.eq_of_mem_replicate hq]
  obtain ⟨t, e, ht⟩ := driveAll_accepted (p := ⟨false, true, m, din, key⟩) hl hp rfl rfl hwait.le hquiet
  have hshows := ht.completed hwait
  obtain ⟨a, haccept, hrun⟩ := driveAll_cons_eq_next e
  have hpresent : driveAll ((Stmt.present din key m).samples fill) s = .next a := by
    rw [hsamples, driveAll_cons haccept, driveAll_nil]
  refine ⟨t, ?_, ht.legal, hshows.phase, cfg_of_driveAll e⟩
  rw [runScript_cons hread hpresent, runScript_cons hnop hrun, runScript_read hshows.readOutputs, cipher_eq_traceAt]

/-! ## The obligations -/

/-- Settles O53: the micro-operation at step j of DEC is the inverse of the one at step 11 - j of ENC. -/
theorem decryptStepsUndoEncryptSteps : Obligations.DecryptStepsUndoEncryptSteps := by
  intro c rk j u v b hu hv
  have hlen : (microOps .dec).length = 12 := by decide
  obtain ⟨hj, -⟩ := List.getElem?_eq_some_iff.mp hu
  rw [microOps_dec_getElem? (hlen ▸ hj), hv] at hu
  obtain rfl : v.inverse = u := Option.some.inj hu
  exact apply_inverse_apply c rk v b

/-- Settles O44: each program is one command, and decryption undoes encryption under the same tables. -/
theorem encryptThenDecryptAtThePorts : Obligations.EncryptThenDecryptAtThePorts := by
  intro fill s p k hl hp
  obtain ⟨t, e, htl, htp, hcfg⟩ := runScript_command fill .enc p k hl hp
  obtain ⟨u, e', -⟩ := runScript_command fill .dec (cipher s.cfg .enc p k) k htl htp
  have hback : cipher s.cfg .dec (cipher s.cfg .enc p k) k = p := cipher_inverse_cipher s.cfg .enc p k
  rw [hcfg, hback] at e'
  exact ⟨t, u, cipher s.cfg .enc p k, e, rfl, e'⟩

/-- Settles O46: the two encryptions are computed round by round, along the traces of spec/95_test_vectors.md section
2.5, and the decryptions undo them. -/
theorem workedExamplesOfTheCommands : Obligations.WorkedExamplesOfTheCommands := by
  have hT : encryptBlock Config.sboxT 0x55#8 0xB2#32 = 0xBF#8 :=
    (encryptBlock_of_rounds (a := 0xC4#8) (b := 0xDF#8) (d := 0xB6#8) (by decide) (by decide) (by decide)).trans
      (by decide)
  have hId : encryptBlock Config.sboxId 0x55#8 0xB2#32 = 0xED#8 :=
    (encryptBlock_of_rounds (a := 0xAF#8) (b := 0x3F#8) (d := 0x5F#8) (by decide) (by decide) (by decide)).trans
      (by decide)
  exact ⟨hT, hId, hT ▸ decryptUndoesEncrypt _ _ _, hId ▸ decryptUndoesEncrypt _ _ _⟩

end Sys2Proof.Machine
end

section
/-! PROOFS. Elaboration (spec/10_state.md section 2, spec/60_exceptions.md section 1): which tables pass their check,
what is built from them, and what is recorded for a table that fails. -/

namespace Sys2Proof.Machine

/-! ## Lemmas -/

section
variable {n : Nat} {t : Vector (Fin n) n} {v : Fin n}

/-- The number of indices that hold a value is how often the table holds it. -/
theorem length_indicesOf (t : Vector (Fin n) n) (v : Fin n) : (indicesOf t v).length = t.toList.count v := by
  have hlist : t.toList = (List.finRange n).map t.get := by
    apply List.ext_getElem
    · simp
    · intro i h₁ h₂
      simp [Vector.get_eq_getElem]
  rw [hlist, List.count, List.countP_map, List.countP_eq_length_filter]
  rfl

/-- The check fails with the first value, ascending, that the table does not hold exactly once (R170, R171). -/
theorem count_of_firstOffending_eq_some (h : firstOffending t = some v) :
    t.toList.count v ≠ 1 ∧ ∀ w < v, t.toList.count w = 1 := by
  obtain ⟨hv, i, hi, rfl, hbefore⟩ := List.find?_eq_some_iff_getElem.mp h
  simp only [length_indicesOf] at hv hbefore
  refine ⟨by simpa using hv, fun w hw => ?_⟩
  have hlt : w.val < i := by simpa [Fin.lt_def] using hw
  simpa using hbefore w.val hlt

end

section
variable {sbox : Vector (Fin 16) 16} {perm : Vector (Fin 8) 8}

/-- Elaboration passes exactly on two bijective tables, and builds their inverses (R206). -/
theorem elaborate_eq_ok_iff {ts : Tables} :
    elaborate sbox perm = .ok ts ↔
      Function.Bijective sbox.get ∧ Function.Bijective perm.get ∧
        ts = ⟨sbox, inverseTable sbox, perm, inverseTable perm⟩ := by
  rw [← firstOffending_eq_none_iff, ← firstOffending_eq_none_iff]
  unfold elaborate
  cases firstOffending sbox with
  | some v => simp
  | none =>
    cases firstOffending perm with
    | some j => simp
    | none => simp [eq_comm]

theorem exists_elaborate_eq_ok_iff :
    (∃ ts, elaborate sbox perm = .ok ts) ↔ Function.Bijective sbox.get ∧ Function.Bijective perm.get := by
  simp [elaborate_eq_ok_iff]

/-- Elaboration records the first offending value of SBOX, or, if SBOX passes, that of the permutation table (R172). -/
theorem elaborate_eq_error_iff {e : ConfigError} :
    elaborate sbox perm = .error e ↔
      (∃ v, firstOffending sbox = some v ∧ e = .sboxNotBijective v) ∨
        (firstOffending sbox = none ∧ ∃ j, firstOffending perm = some j ∧ e = .permNotPermutation j) := by
  unfold elaborate
  cases firstOffending sbox with
  | some v => simp [eq_comm]
  | none =>
    cases firstOffending perm with
    | some j => simp [eq_comm]
    | none => simp

end

/-! ## The obligations -/

/-- Settles O54: PERM passes its check, so all turns on SBOX. -/
theorem elaborationChecksTheSbox : Obligations.ElaborationChecksTheSbox := by
  intro sbox
  refine ⟨?_, fun ts hts => ?_, fun e he => ?_⟩
  · rw [exists_elaborate_eq_ok_iff, and_iff_left permTable_bijective]
  · obtain ⟨hsbox, -, rfl⟩ := elaborate_eq_ok_iff.mp hts
    exact ⟨rfl, rfl, rfl, inverseTable_get hsbox.injective⟩
  · obtain ⟨v, hv, rfl⟩ | ⟨-, j, hj, -⟩ := elaborate_eq_error_iff.mp he
    · exact ⟨rfl, v, rfl, count_of_firstOffending_eq_some hv⟩
    · rw [firstOffending_eq_none_iff.mpr permTable_bijective] at hj; cases hj

/-- Settles O55: SBOX passes its check, so all turns on the permutation table. -/
theorem elaborationChecksThePermutation : Obligations.ElaborationChecksThePermutation := by
  intro c perm
  refine ⟨?_, fun ts hts => ?_, fun e he => ?_⟩
  · rw [exists_elaborate_eq_ok_iff, and_iff_right c.sboxBijective]
  · obtain ⟨-, hperm, rfl⟩ := elaborate_eq_ok_iff.mp hts
    exact ⟨rfl, inverseTable_get hperm.injective⟩
  · obtain ⟨v, hv, -⟩ | ⟨-, j, hj, rfl⟩ := elaborate_eq_error_iff.mp he
    · rw [firstOffending_eq_none_iff.mpr c.sboxBijective] at hv; cases hv
    · exact ⟨rfl, j, rfl, count_of_firstOffending_eq_some hj⟩

end Sys2Proof.Machine
end
